-- ==== Sys2Proof/Word.lean ====
section
/-! DEFINITION. The words of the GHASH share evaluator (GSE): spec/00_scope.md R6, R10. -/

namespace Sys2Proof

/-- A 128-bit word: a field element, a block, a tag, a command's data operand, a response's datum (R6, R42).
Bit 0 is the least significant bit (R10). -/
abbrev Word128 := BitVec 128

/-- A 32-bit command word (R51). -/
abbrev CmdWord := BitVec 32

/-- A 64-bit length in bytes, or a 64-bit length field of the length block (R6). -/
abbrev Word64 := BitVec 64

/-- A byte. -/
abbrev Byte := BitVec 8

/-- A command as it crosses the command port: a command word and a data operand, accepted together (R51). -/
structure Command where
  word : CmdWord
  data : Word128
deriving DecidableEq, Repr

end Sys2Proof
end

