-- ==== Sys2Proof/Syntax.lean ====
section
/-! DEFINITION. The 13 commands of the GSE with their operands (spec/30_encoding.md R54, R56). -/

namespace Sys2Proof

/-- One constructor per row of spec/opcode_table.json. A command that takes no data operand has no field for it:
the operand is ignored (R57). The index of WR_PT is an unsigned number (R53); the check that it fits its field is
`Instr.wf`. The operand of SET_CFG is the whole word, because its reserved bits are checked when it runs (R91). -/
inductive Instr where
  /-- NOP, opcode 0x00 (R89). -/
  | nop
  /-- CLR, opcode 0x01 (R90). -/
  | clr
  /-- SET_CFG, opcode 0x02 (R91): bit 0 is NORM, bits 127:1 are reserved. -/
  | setCfg (data : Word128)
  /-- RD_STATUS, opcode 0x03 (R92). -/
  | rdStatus
  /-- WR_PT, opcode 0x10 (R67): the table index and the share. -/
  | wrPt (idx : Nat) (v : Word128)
  /-- WR_IVS, opcode 0x11 (R68): the encrypted-IV share. -/
  | wrIvs (v : Word128)
  /-- WR_TAGS, opcode 0x12 (R69): the peer's tag share. -/
  | wrTags (v : Word128)
  /-- WR_TAG, opcode 0x13 (R70): the tag, byte 0 in bits 127:120. -/
  | wrTag (v : Word128)
  /-- START, opcode 0x20 (R81): A, the AAD bytes, and C, the ciphertext bytes with the tag. -/
  | start (a c : Word64)
  /-- ABSORB, opcode 0x21 (R82): the next AAD or body block. -/
  | absorb (w : Word128)
  /-- FINISH, opcode 0x22 (R83). -/
  | finish
  /-- RD_ACC, opcode 0x23 (R84). -/
  | rdAcc
  /-- VERIFY, opcode 0x30 (R86). -/
  | verify
deriving DecidableEq, Repr

/-- Why a command word is illegal (R59). Either reason raises ERR_ILLEGAL (R55). -/
inductive DecodeError where
  /-- No row has this opcode. -/
  | reservedOpcode (opcode : BitVec 8)
  /-- The opcode is a row's, and a reserved bit of its format is not zero. -/
  | reservedBits (opcode : BitVec 8)
deriving DecidableEq, Repr

/-- What decoding answers: it is total (R55). -/
inductive Decoded where
  | instr (i : Instr)
  | illegal (why : DecodeError)
deriving DecidableEq, Repr

end Sys2Proof
end

