-- ==== Sys2Proof/WellFormed.lean ====
section
/-! DEFINITION. Which instructions an encoding exists for. -/

namespace Sys2Proof

/-- The index of WR_PT fits the 16-bit index field (R53). Every other operand is a word of its field's width.
Index 0 and an index above PT_DEPTH are well formed: they have words, and those words answer ERR_INDEX (R67). -/
def Instr.wf : Instr → Bool
  | .nop => true
  | .clr => true
  | .setCfg _ => true
  | .rdStatus => true
  | .wrPt idx _ => decide (idx < 2 ^ 16)
  | .wrIvs _ => true
  | .wrTags _ => true
  | .wrTag _ => true
  | .start _ _ => true
  | .absorb _ => true
  | .finish => true
  | .rdAcc => true
  | .verify => true

end Sys2Proof
end

