-- ==== Sys2Proof/Decode.lean ====
section
/-! DEFINITION. The decoder and the encoder (spec/30_encoding.md). -/

namespace Sys2Proof

/-- A row of the opcode map (R54): the instruction it stands for when
`(cmd_word & mask) == match`. -/
structure Row where
  mnemonic : String
  pattern  : CmdWord
  mask     : CmdWord
  build    : Command → Instr

/-- The table index of format X: bits 15:0, zero-extended, unscaled (R53). -/
def idxField (w : CmdWord) : Nat := (w.extractLsb' 0 16).toNat

/-- The opcode: bits 31:24 (R52, R53). -/
def opcodeField (w : CmdWord) : BitVec 8 := w.extractLsb' 24 8

/-- A of START: bits 127:64 of the data operand (R56). -/
def aadField (d : Word128) : Word64 := d.extractLsb' 64 64

/-- C of START: bits 63:0 of the data operand (R56). -/
def ctField (d : Word128) : Word64 := d.extractLsb' 0 64

/-- The rows of group 0x0_, control (R54). -/
def controlRows : List Row :=
  [ ⟨"NOP",       0x00000000#32, 0xFFFFFFFF#32, fun _ => .nop⟩,
    ⟨"CLR",       0x01000000#32, 0xFFFFFFFF#32, fun _ => .clr⟩,
    ⟨"SET_CFG",   0x02000000#32, 0xFFFFFFFF#32, fun c => .setCfg c.data⟩,
    ⟨"RD_STATUS", 0x03000000#32, 0xFFFFFFFF#32, fun _ => .rdStatus⟩ ]

/-- The rows of group 0x1_, the loader (R54). -/
def loadRows : List Row :=
  [ ⟨"WR_PT",     0x10000000#32, 0xFFFF0000#32, fun c => .wrPt (idxField c.word) c.data⟩,
    ⟨"WR_IVS",    0x11000000#32, 0xFFFFFFFF#32, fun c => .wrIvs c.data⟩,
    ⟨"WR_TAGS",   0x12000000#32, 0xFFFFFFFF#32, fun c => .wrTags c.data⟩,
    ⟨"WR_TAG",    0x13000000#32, 0xFFFFFFFF#32, fun c => .wrTag c.data⟩ ]

/-- The rows of groups 0x2_, the GHASH evaluator, and 0x3_, the verifier (R54). -/
def ghashRows : List Row :=
  [ ⟨"START",     0x20000000#32, 0xFFFFFFFF#32, fun c => .start (aadField c.data) (ctField c.data)⟩,
    ⟨"ABSORB",    0x21000000#32, 0xFFFFFFFF#32, fun c => .absorb c.data⟩,
    ⟨"FINISH",    0x22000000#32, 0xFFFFFFFF#32, fun _ => .finish⟩,
    ⟨"RD_ACC",    0x23000000#32, 0xFFFFFFFF#32, fun _ => .rdAcc⟩,
    ⟨"VERIFY",    0x30000000#32, 0xFFFFFFFF#32, fun _ => .verify⟩ ]

/-- The opcode map of R54. -/
def opcodeTable : List Row := controlRows ++ loadRows ++ ghashRows

/-- The row selects the command word (R55). -/
def rowSelects (r : Row) (w : CmdWord) : Bool := (w &&& r.mask) == r.pattern

/-- The name of the refusal of a word no row selects (R59). -/
def illegalReason (w : CmdWord) : DecodeError :=
  if opcodeTable.any (fun r => opcodeField r.pattern == opcodeField w) then .reservedBits (opcodeField w)
  else .reservedOpcode (opcodeField w)

/-- Decoding a command, total on every command word (R55): the row that selects the word, applied to the operands.
Which row it is depends on the command word alone. -/
def decode (c : Command) : Decoded :=
  match opcodeTable.find? (fun r => rowSelects r c.word) with
  | some r => .instr (r.build c)
  | none => .illegal (illegalReason c.word)

/-- Format N: the opcode in bits 31:24, bits 23:0 zero (R52). -/
def formatN (opcode : BitVec 8) : CmdWord := opcode ++ 0#24

/-- Format X: the opcode in bits 31:24, bits 23:16 zero, the index in bits 15:0 (R53). -/
def formatX (opcode : BitVec 8) (idx : Nat) : CmdWord := opcode ++ 0#8 ++ BitVec.ofNat 16 idx

/-- The command of an instruction (R52 to R56). The ignored data operand is sent as zero, as the assembler
sends it (R61). -/
def encode : Instr → Command
  | .nop => ⟨formatN 0x00#8, 0#128⟩
  | .clr => ⟨formatN 0x01#8, 0#128⟩
  | .setCfg data => ⟨formatN 0x02#8, data⟩
  | .rdStatus => ⟨formatN 0x03#8, 0#128⟩
  | .wrPt idx v => ⟨formatX 0x10#8 idx, v⟩
  | .wrIvs v => ⟨formatN 0x11#8, v⟩
  | .wrTags v => ⟨formatN 0x12#8, v⟩
  | .wrTag v => ⟨formatN 0x13#8, v⟩
  | .start a c => ⟨formatN 0x20#8, a ++ c⟩
  | .absorb w => ⟨formatN 0x21#8, w⟩
  | .finish => ⟨formatN 0x22#8, 0#128⟩
  | .rdAcc => ⟨formatN 0x23#8, 0#128⟩
  | .verify => ⟨formatN 0x30#8, 0#128⟩

/-- The commands whose data operand has a meaning (R56); the others ignore it (R57). -/
def takesData : Instr → Bool
  | .nop => false
  | .clr => false
  | .setCfg _ => true
  | .rdStatus => false
  | .wrPt _ _ => true
  | .wrIvs _ => true
  | .wrTags _ => true
  | .wrTag _ => true
  | .start _ _ => true
  | .absorb _ => true
  | .finish => false
  | .rdAcc => false
  | .verify => false

/-- A command whose bits are the low `nbits` bits of `w`, numbered as spec/opcode_table.json numbers them: the
command word is bits 31:0, and the data operand's bits count on from bit 32 (DESIGN CHOICE, log 3: the table gives
the operand no bits, so for its rows the operand is zero). -/
def commandOfBits (nbits w : Nat) : Command :=
  let bits := w % 2 ^ nbits
  ⟨BitVec.ofNat 32 bits, BitVec.ofNat 128 (bits >>> 32)⟩

/-- The instruction the decoder reads from a row's word. -/
def decodeTableWord (nbits w : Nat) : Option Instr :=
  match decode (commandOfBits nbits w) with
  | .instr i => some i
  | .illegal _ => none

end Sys2Proof
end

