-- ==== Sys2Proof/Config.lean ====
section
/-! DEFINITION. What an implementation of the GSE fixes and the spec leaves OPEN: PT_DEPTH and LAT(op)
(spec/00_scope.md R7, R8; spec/92_eei_decisions.md D9, D22). -/

namespace Sys2Proof.Config

/-- The open number behind PT_DEPTH: it has no body, so no proof can see which number it is (log 1). -/
opaque ptDepthSeed : Nat

/-- PT_DEPTH of the machine that `State.reset` starts: some number of 1..65535, and any of them (R7, log 1). -/
def ptDepth : Nat := ptDepthSeed % 65535 + 1

/-- The open number behind LAT(op): it has no body (log 2). -/
opaque latSeed : BitVec 8 → Nat

/-- LAT(op), the clock cycles from a command's acceptance to its response: at least 1, and a function of the
opcode alone, never of data (R8, R117). No rule of the model depends on it. -/
def lat (opcode : BitVec 8) : Nat := latSeed opcode + 1

end Sys2Proof.Config
end

