-- ==== Sys2Proof/Machine/State.lean ====
section
/-! DEFINITION. The state of the GSE (spec/10_state.md R16 to R34), the reasons a step can stop, and the state
after reset (spec/70_reset_and_hazards.md R108). -/

namespace Sys2Proof.Machine

/-- STATE, the evaluation state (R17). The encoding 3 is never held, so the type has three values
(spec/93_implementation_defined.md I15). -/
inductive EvalState where
  /-- No evaluation; ACC holds no result. -/
  | idle
  /-- An evaluation is started and blocks are being absorbed. -/
  | active
  /-- ACC holds the PartialGHASH of the last evaluation. -/
  | done
deriving DecidableEq, Repr

/-- The six error responses of R93. -/
inductive ErrCode where
  /-- ERR_ILLEGAL, 0x81. -/
  | illegal
  /-- ERR_SEQUENCE, 0x82. -/
  | sequence
  /-- ERR_INDEX, 0x83. -/
  | index
  /-- ERR_TOO_SHORT, 0x84. -/
  | tooShort
  /-- ERR_INSUFFICIENT, 0x85. -/
  | insufficient
  /-- ERR_NOT_LOADED, 0x86. -/
  | notLoaded
deriving DecidableEq, Repr

/-- The nine response codes of R93; no other code is ever produced (I17). -/
inductive RspCode where
  | ok
  | pass
  | fail
  | err (e : ErrCode)
deriving DecidableEq, Repr

/-- A response: a code and a 128-bit datum (R51). -/
structure Response where
  code : RspCode
  data : Word128
deriving DecidableEq, Repr

/-- What the host, the only outside agent, does at the ports (R107, R112), as a list the step reads. -/
inductive HostMove where
  /-- It drives cmd_valid = 1 with this command, and keeps both until the command is accepted. -/
  | present (c : Command)
  /-- It drives rsp_ready = 1: a response that stands on the response port is taken. -/
  | take
  /-- It holds rst_n = 0 at a rising clock edge. -/
  | reset
deriving DecidableEq, Repr

/-- Entries of the power-share table as (index, share) pairs in one canonical form: indices strictly rising and no
entry equal to 0^128, which is what an unlisted index holds (log 4). -/
abbrev Table := List (Nat × Word128)

/-- Everything the spec gives the machine: the registers of R16, PT_DEPTH (R7), and the port handshake state (R34,
R112). `host` is the model's own: what the host will do next. -/
structure State where
  /-- STATE, reset IDLE (R16, R17). -/
  evalState : EvalState
  /-- CFG.NORM, reset 1 (R19). -/
  norm : Bool
  /-- PT[1..PT_DEPTH], content unspecified after reset (R20); log 4. -/
  pt : Table
  /-- The indices i with PT_V[i] = 1, strictly rising; none after reset (R21). -/
  ptv : List Nat
  /-- IVS, reset 0 (R22). -/
  ivs : Word128
  /-- IVS_V, reset 0 (R22). -/
  ivsV : Bool
  /-- TAGS, reset 0 (R23). -/
  tags : Word128
  /-- TAGS_V, reset 0 (R23). -/
  tagsV : Bool
  /-- TAG, reset 0 (R24). -/
  tag : Word128
  /-- TAG_V, reset 0 (R24). -/
  tagV : Bool
  /-- ACC, reset 0^128 (R25). -/
  acc : Word128
  /-- LEN_A, reset 0 (R26). -/
  lenA : Word64
  /-- LEN_C, reset 0 (R26). -/
  lenC : Word64
  /-- M, reset 0 (R27). -/
  m : BitVec 16
  /-- K, reset 0 (R27). -/
  k : BitVec 16
  /-- VERDICT, reset 0 (R28). -/
  verdict : Bool
  /-- VV, reset 0 (R28). -/
  vv : Bool
  /-- ERRCODE, reset 0 (R29). -/
  errcode : Byte
  /-- PT_DEPTH, the number of table entries: no command changes it (R7, R31). -/
  depth : Nat
  /-- The command port: the command the host presents and the GSE has not accepted (cmd_valid = 1), if any (R112). -/
  cmdPort : Option Command
  /-- The response port: the response the host has not taken (rsp_valid = 1), if any; cmd_ready is 0 while there is
  one (R34, R112). -/
  rspPort : Option Response
  /-- What the host does next, oldest first (log 5). -/
  host : List HostMove
deriving DecidableEq, Repr

/-- Why the machine stops with a fault. -/
inductive Fault where
  /-- ABSORB or FINISH needs a table entry whose index is not in 1..PT_DEPTH: such an entry does not exist (R20,
  R37). Raised by ABSORB and FINISH, in states that R32 says no run reaches. Safe: the machine stops. -/
  | noSuchEntry
deriving DecidableEq, Repr

/-- Why the machine has no step. -/
inductive Refusal where
  /-- An instruction without a meaning in the model: raised by `exec` for such an instruction; none is left. Safe. -/
  | notModelled (mnemonic : String)
  /-- The host presents a command while an earlier one still waits on the command port: it changes or drops a waiting
  command, which R112 forbids. Such a host gets no move (R114, I8). Raised by the host's move. Safe. -/
  | handshakeBroken
deriving DecidableEq, Repr

/-- The state after reset of a GSE with `depth` table entries (R108). PT's contents are 0^128: the spec leaves
them unspecified, and no command observes them (R20, R33; DESIGN CHOICE, log 4). -/
def State.resetWith (depth : Nat) : State where
  evalState := .idle
  norm := true
  pt := []
  ptv := []
  ivs := 0#128
  ivsV := false
  tags := 0#128
  tagsV := false
  tag := 0#128
  tagV := false
  acc := 0#128
  lenA := 0#64
  lenC := 0#64
  m := 0#16
  k := 0#16
  verdict := false
  vv := false
  errcode := 0#8
  depth := depth
  cmdPort := none
  rspPort := none
  host := []

/-- The machine right after reset, with the open PT_DEPTH of Config (R108; log 1). -/
def State.reset : State := State.resetWith Config.ptDepth

end Sys2Proof.Machine
end

