-- ==== Sys2Proof/Machine/Ops.lean ====
section
/-! DEFINITION. The shared operations over the registers and the power-share table: answering a command, the error
abort (spec/60_exceptions.md R97), reading and writing table entries (spec/20_memory.md R37), and the host's moves
at the ports (spec/70_reset_and_hazards.md R107 to R114). -/

namespace Sys2Proof.Machine

/-- The value of an error code (R93). -/
def errByte : ErrCode → Byte
  | .illegal => 0x81#8
  | .sequence => 0x82#8
  | .index => 0x83#8
  | .tooShort => 0x84#8
  | .insufficient => 0x85#8
  | .notLoaded => 0x86#8

/-- rsp_code[7:0] of a response code (R93). -/
def rspByte : RspCode → Byte
  | .ok => 0x00#8
  | .pass => 0x01#8
  | .fail => 0x02#8
  | .err e => errByte e

/-- respond(code, data): the command's one response goes to the response port (R11, R51). -/
def respond (code : RspCode) (data : Word128) (s : State) : State :=
  { s with rspPort := some ⟨code, data⟩ }

/-- raise E: the error response and the abort, in one step (R97). The shares, the tag, their valid bits and CFG are
kept. There is no handler and no return from an error (R99). -/
def raise (e : ErrCode) (s : State) : State :=
  respond (.err e) 0#128
    { s with
      evalState := .idle
      acc := 0#128, lenA := 0#64, lenC := 0#64, m := 0#16, k := 0#16
      vv := false, verdict := false
      errcode := errByte e }

/-- What an index holds: the listed share, or 0^128 where none is listed. -/
def tableRead : Table → Nat → Word128
  | [], _ => 0#128
  | (j, w) :: t, i => if j = i then w else tableRead t i

/-- The table with `v` at index `i`, in canonical form again: 0^128 is not listed. -/
def tableWrite : Table → Nat → Word128 → Table
  | [], i, v => if v = 0#128 then [] else [(i, v)]
  | (j, w) :: t, i, v =>
    if j < i then (j, w) :: tableWrite t i v
    else if j = i then (if v = 0#128 then t else (i, v) :: t)
    else (if v = 0#128 then (j, w) :: t else (i, v) :: (j, w) :: t)

/-- The canonical form of a table: indices strictly rising, no entry 0^128. -/
abbrev Table.wf (t : Table) : Prop := t.Pairwise (fun a b => a.1 < b.1) ∧ ∀ e ∈ t, e.2 ≠ 0#128

/-- The list of valid indices with `i` among them, strictly rising again. -/
def insertIndex : List Nat → Nat → List Nat
  | [], i => [i]
  | j :: js, i => if j < i then j :: insertIndex js i else if j = i then j :: js else i :: j :: js

/-- An index that names an entry: 1..PT_DEPTH (R20, R37). -/
def entryExists (s : State) (i : Nat) : Bool := decide (1 ≤ i ∧ i ≤ s.depth)

/-- PT[i]; there is no entry outside 1..PT_DEPTH (R20). -/
def readPt (s : State) (i : Nat) : Option Word128 :=
  if entryExists s i then some (tableRead s.pt i) else none

/-- PT_V[i] = 1 (R21). -/
def ptValid (s : State) (i : Nat) : Bool := s.ptv.contains i

/-- PT[i] <- v and PT_V[i] <- 1 (R67). -/
def writePt (i : Nat) (v : Word128) (s : State) : State :=
  { s with pt := tableWrite s.pt i v, ptv := insertIndex s.ptv i }

/-- PT_V[j] = 1 for every j in 1..n (R81). -/
def allValid (s : State) (n : Nat) : Bool := (List.range n).all (fun j => ptValid s (j + 1))

/-- Every register at its reset value, PT's contents at 0^128 (R90); the ports and PT_DEPTH are no registers. -/
def clearRegisters (s : State) : State :=
  { s with
    evalState := .idle, norm := true
    pt := [], ptv := []
    ivs := 0#128, ivsV := false, tags := 0#128, tagsV := false, tag := 0#128, tagV := false
    acc := 0#128, lenA := 0#64, lenC := 0#64, m := 0#16, k := 0#16
    verdict := false, vv := false, errcode := 0#8 }

/-- Accepting a command whose word no row selects (R55): ERR_ILLEGAL, whatever the reason's name (R59). -/
def takeIllegal (_why : DecodeError) (s : State) : State := raise .illegal s

/-- rst_n = 0 (R107 to R109): the reset state; a response not yet taken is discarded. A command the GSE has not
accepted still stands on the command port, since the host keeps it there until it is accepted (R112). -/
def resetNow (s : State) : State :=
  { State.resetWith s.depth with cmdPort := s.cmdPort, host := s.host }

/-- The host's next move. With none, the GSE holds its state (R106). Taking with no response there does nothing
(R112). -/
def hostMove (s : State) : Host.Outcome State Fault Refusal :=
  match s.host with
  | [] => .next s
  | .present c :: rest =>
    match s.cmdPort with
    | none => .next { s with cmdPort := some c, host := rest }
    | some _ => .refused .handshakeBroken
  | .take :: rest => .next { s with rspPort := none, host := rest }
  | .reset :: rest => .next (resetNow { s with host := rest })

/-- The port with this command presented and no response waiting, so that the next step accepts it. -/
def presentNow (c : Command) (s : State) : State := { s with cmdPort := some c, rspPort := none }

end Sys2Proof.Machine
end

