-- ==== Sys2Proof/Machine/Flags.lean ====
section
/-! DEFINITION. The status bits: the verdict's validity, the table length PT_N, and the STATUS view
(spec/10_state.md R21, R28, R31). The GSE has no arithmetic flags (R30). -/

namespace Sys2Proof.Machine

/-- VV <- 0; VERDICT <- 0: an operand of VERIFY has changed (R28). -/
def dropVerdict (s : State) : State := { s with vv := false, verdict := false }

/-- From a gap-free run 1..n of valid entries, the longest one, looking at most `fuel` entries further. -/
def validRun (s : State) : Nat → Nat → Nat
  | 0, n => n
  | fuel + 1, n => if entryExists s (n + 1) && ptValid s (n + 1) then validRun s fuel (n + 1) else n

/-- PT_N: the largest n in 0..PT_DEPTH with PT_V[j] = 1 for every j in 1..n (R21). A run cannot be longer than the
list of valid indices. -/
def ptN (s : State) : Nat := validRun s s.ptv.length 0

/-- STATUS[1:0] (R17, R31). -/
def stateBits : EvalState → BitVec 2
  | .idle => 0#2
  | .active => 1#2
  | .done => 2#2

/-- The STATUS view, from bit 127 down (R31). -/
def statusView (s : State) : Word128 :=
  0#48 ++ BitVec.ofNat 16 s.depth ++ s.k ++ s.m ++ BitVec.ofNat 16 (ptN s) ++ s.errcode
    ++ BitVec.ofBool s.verdict ++ BitVec.ofBool s.vv ++ BitVec.ofBool s.tagV ++ BitVec.ofBool s.tagsV
    ++ BitVec.ofBool s.ivsV ++ BitVec.ofBool s.norm ++ stateBits s.evalState

end Sys2Proof.Machine
end

