-- ==== Sys2Proof/Machine/Control.lean ====
section
/-! DEFINITION. NOP, CLR, SET_CFG, RD_STATUS (spec/43_control.md). -/

namespace Sys2Proof.Machine

/-- NOP (R89). -/
def execNop (s : State) : Host.Outcome State Fault Refusal :=
  .next (respond .ok 0#128 s)

/-- CLR (R90): accepted in every state. -/
def execClr (s : State) : Host.Outcome State Fault Refusal :=
  .next (respond .ok 0#128 (clearRegisters s))

/-- SET_CFG (R91): the state check comes before the check of the reserved data bits 127:1 (R96). Every stored share
that depends on CFG.NORM becomes invalid, also when the bit does not change. -/
def execSetCfg (data : Word128) (s : State) : Host.Outcome State Fault Refusal :=
  .next <|
    if s.evalState = .active then raise .sequence s
    else if data.extractLsb' 1 127 ≠ 0#127 then raise .illegal s
    else respond .ok 0#128 (dropVerdict { s with norm := data.getLsbD 0, ptv := [], ivsV := false })

/-- RD_STATUS (R92): accepted in every state, changes none. -/
def execRdStatus (s : State) : Host.Outcome State Fault Refusal :=
  .next (respond .ok (statusView s) s)

end Sys2Proof.Machine
end

