-- ==== Sys2Proof/Machine/Operands.lean ====
section
/-! DEFINITION. The operand functions: bytes of a word, the normalisation (spec/40_load.md R63), the byte mask, the
block count and the length block (spec/41_ghash.md R74 to R78), and the field multiplication (R71). -/

namespace Sys2Proof.Machine

/-- Byte j of a word, j = 0..15: `w[127-8j : 120-8j]`, so byte 0 is the most significant (R10, R38). -/
def byteOf (w : Word128) (j : Nat) : Byte := w.extractLsb' (120 - 8 * j) 8

/-- The number whose bit i is `f i` for i < n, and 0 above. -/
def natOfBits (f : Nat → Bool) : Nat → Nat
  | 0 => 0
  | n + 1 => natOfBits f n + (if f n then 2 ^ n else 0)

/-- The word whose bit i is `f i`. -/
def wordOfBits (f : Nat → Bool) : Word128 := BitVec.ofNat 128 (natOfBits f 128)

/-- Step 3 of the normalisation: byte j of the result is byte 15 - j of `x` (R63). -/
def byteSwap (x : Word128) : Word128 := wordOfBits (fun i => x.getLsbD (8 * (15 - i / 8) + i % 8))

/-- Step 4 of the normalisation: bit i of the result is bit 127 - i of `y` (R63). -/
def bitReverse (y : Word128) : Word128 := wordOfBits (fun i => y.getLsbD (127 - i))

/-- norm(x): the byte swap, then the full bit reversal (R63). -/
def normWord (x : Word128) : Word128 := bitReverse (byteSwap x)

/-- What WR_PT and WR_IVS store for the operand `v`: its normalisation when CFG.NORM = 1 (R66 to R68). -/
def shareIn (s : State) (v : Word128) : Word128 := if s.norm then normWord v else v

/-- The word of a byte string: its first byte is byte 0; a string shorter than 16 bytes fills up with zeros on the
right (R38, R74). -/
def wordOfBytes (bs : List Byte) : Word128 :=
  BitVec.ofNat 128 ((List.range 16).foldl (fun n j => 256 * n + (bs.getD j 0#8).toNat) 0)

/-- A part (the AAD or the body) cut into 16-byte blocks, the last padded on the right (R39, R74). The fuel is the
number of blocks. -/
def blocksOfBytes : Nat → List Byte → List Word128
  | 0, _ => []
  | n + 1, bs => wordOfBytes (bs.take 16) :: blocksOfBytes n (bs.drop 16)

/-- ceil(n / 16) (R12, R74). -/
def ceil16 (n : Nat) : Nat := (n + 15) / 16

/-- C - 16, the body's length, in the width of LEN_C. It is exact where C ≥ 16, which START requires; below that it is
C - 16 modulo 2^64, which has the remainder and the low bits the formulas of R77 and R78 take. -/
def bodyLen (c : Word64) : Word64 := c - 16#64

/-- m = ceil(A/16) + ceil((C-16)/16) + 1, unbounded (R75). -/
def blockCount (a c : Word64) : Nat := ceil16 a.toNat + ceil16 (bodyLen c).toNat + 1

/-- maskw(n): ones in bytes 0..n-1, zeros in the rest (R78). -/
def maskw (n : Nat) : Word128 := BitVec.allOnes 128 <<< (128 - 8 * n)

/-- nbytes(k): how many bytes of block k belong to the message, of an evaluation with LEN_A = a, LEN_C = c and M = m
(R78, R82). -/
def nbytes (a c : Word64) (m k : Nat) : Nat :=
  let nA := ceil16 a.toNat
  let r := if k ≤ nA then a.toNat % 16 else (bodyLen c).toNat % 16
  let last := if k ≤ nA then k = nA else k + 1 = m
  if last ∧ r ≠ 0 then r else 16

/-- lenblock(A, C): the AAD bit-length in bits 127:64 and the body bit-length in bits 63:0 (R77). -/
def lenblock (a c : Word64) : Word128 := (8#64 * a) ++ (8#64 * bodyLen c)

/-- The reduction X^128 = 1 + X + X^2 + X^7 in the word's bit order: 0xE1 and 30 zero digits (R71). -/
def reduction : Word128 := 0xE1000000000000000000000000000000#128

/-- The step of v in R71's loop: one multiplication by the polynomial X. -/
def timesX (v : Word128) : Word128 := if v.getLsbD 0 then (v >>> 1) ^^^ reduction else v >>> 1

/-- R71's loop with `n` passes left: pass i = 128 - n looks at bit 127 - i of `x`, which is bit n - 1. -/
def gmulLoop (x : Word128) : Nat → Word128 → Word128 → Word128
  | 0, _, z => z
  | n + 1, v, z => gmulLoop x n (timesX v) (if x.getLsbD n then z ^^^ v else z)

/-- gmul(x, y): multiplication in GF(2^128), shift and add (R71). -/
def gmul (x y : Word128) : Word128 := gmulLoop x 128 y 0#128

end Sys2Proof.Machine
end

