-- ==== Sys2Proof/Machine/Ghash.lean ====
section
/-! DEFINITION. START, ABSORB, FINISH, RD_ACC (spec/41_ghash.md). -/

namespace Sys2Proof.Machine

/-- START (R81): the state, then C ≥ 16, then the table. The block count is compared unbounded, before it is stored. -/
def execStart (a c : Word64) (s : State) : Host.Outcome State Fault Refusal :=
  .next <|
    if s.evalState = .active then raise .sequence s
    else if c.toNat < 16 then raise .tooShort s
    else if s.depth < blockCount a c then raise .insufficient s
    else if allValid s (blockCount a c) then
      respond .ok 0#128
        (dropVerdict
          { s with
            lenA := a, lenC := c, m := BitVec.ofNat 16 (blockCount a c), k := 0#16
            acc := 0#128, evalState := .active })
    else raise .insufficient s

/-- Block k of the running evaluation: the operand with its pad bytes cleared (R78). -/
def maskedBlock (s : State) (k : Nat) (w : Word128) : Word128 := w &&& maskw (nbytes s.lenA s.lenC s.m.toNat k)

/-- ABSORB (R82): block k = K + 1 is folded into ACC with the share of H^(M-k+1). -/
def execAbsorb (w : Word128) (s : State) : Host.Outcome State Fault Refusal :=
  let k := s.k.toNat + 1
  if s.evalState ≠ .active then .next (raise .sequence s)
  else if k = s.m.toNat then .next (raise .sequence s)
  else
    match readPt s (s.m.toNat + 1 - k) with
    | some h =>
      .next (respond .ok 0#128
        { s with acc := s.acc ^^^ gmul (maskedBlock s k w) h, k := BitVec.ofNat 16 k })
    | none => .fault .noSuchEntry

/-- FINISH (R83): the length block is folded into ACC with the share of H^1. -/
def execFinish (s : State) : Host.Outcome State Fault Refusal :=
  if s.evalState ≠ .active then .next (raise .sequence s)
  else if s.k.toNat + 1 ≠ s.m.toNat then .next (raise .sequence s)
  else
    match readPt s 1 with
    | some h =>
      .next (respond .ok 0#128
        { s with acc := s.acc ^^^ gmul (lenblock s.lenA s.lenC) h, k := s.m, evalState := .done })
    | none => .fault .noSuchEntry

/-- RD_ACC (R84): only in DONE. -/
def execRdAcc (s : State) : Host.Outcome State Fault Refusal :=
  .next <|
    if s.evalState ≠ .done then raise .sequence s
    else respond .ok s.acc s

end Sys2Proof.Machine
end

