-- ==== Sys2Proof/Machine/Load.lean ====
section
/-! DEFINITION. WR_PT, WR_IVS, WR_TAGS, WR_TAG (spec/40_load.md). -/

namespace Sys2Proof.Machine

/-- WR_PT (R67): the state check, then the index check. ACC, VV and VERDICT are unchanged. -/
def execWrPt (idx : Nat) (v : Word128) (s : State) : Host.Outcome State Fault Refusal :=
  .next <|
    if s.evalState = .active then raise .sequence s
    else if entryExists s idx then respond .ok 0#128 (writePt idx (shareIn s v) s)
    else raise .index s

/-- WR_IVS (R68). -/
def execWrIvs (v : Word128) (s : State) : Host.Outcome State Fault Refusal :=
  .next <|
    if s.evalState = .active then raise .sequence s
    else respond .ok 0#128 (dropVerdict { s with ivs := shareIn s v, ivsV := true })

/-- WR_TAGS (R69): never normalised. -/
def execWrTags (v : Word128) (s : State) : Host.Outcome State Fault Refusal :=
  .next <|
    if s.evalState = .active then raise .sequence s
    else respond .ok 0#128 (dropVerdict { s with tags := v, tagsV := true })

/-- WR_TAG (R70): never normalised. -/
def execWrTag (v : Word128) (s : State) : Host.Outcome State Fault Refusal :=
  .next <|
    if s.evalState = .active then raise .sequence s
    else respond .ok 0#128 (dropVerdict { s with tag := v, tagV := true })

end Sys2Proof.Machine
end

