-- ==== Sys2Proof/Machine/Verify.lean ====
section
/-! DEFINITION. VERIFY (spec/42_verify.md). -/

namespace Sys2Proof.Machine

/-- recon = ACC xor IVS xor TAGS (R85). -/
def recon (s : State) : Word128 := s.acc ^^^ s.ivs ^^^ s.tags

/-- VERIFY (R86): a mismatch is the result FAIL, not an error (R94). -/
def execVerify (s : State) : Host.Outcome State Fault Refusal :=
  .next <|
    if s.evalState ≠ .done then raise .sequence s
    else if !(s.ivsV && s.tagsV && s.tagV) then raise .notLoaded s
    else if recon s = s.tag then respond .pass 0#128 { s with verdict := true, vv := true }
    else respond .fail 0#128 { s with verdict := false, vv := true }

end Sys2Proof.Machine
end

