-- ==== Sys2Proof/Machine/Dispatch.lean ====
section
/-! DEFINITION. The meaning of every command of spec/opcode_table.json. -/

namespace Sys2Proof.Machine

def exec (i : Instr) (s : State) : Host.Outcome State Fault Refusal :=
  match i with
  -- spec/43_control.md
  | .nop => Sys2Proof.Machine.execNop s
  | .clr => Sys2Proof.Machine.execClr s
  | .setCfg data => Sys2Proof.Machine.execSetCfg data s
  | .rdStatus => Sys2Proof.Machine.execRdStatus s
  -- spec/40_load.md
  | .wrPt idx v => Sys2Proof.Machine.execWrPt idx v s
  | .wrIvs v => Sys2Proof.Machine.execWrIvs v s
  | .wrTags v => Sys2Proof.Machine.execWrTags v s
  | .wrTag v => Sys2Proof.Machine.execWrTag v s
  -- spec/41_ghash.md
  | .start a c => Sys2Proof.Machine.execStart a c s
  | .absorb w => Sys2Proof.Machine.execAbsorb w s
  | .finish => Sys2Proof.Machine.execFinish s
  | .rdAcc => Sys2Proof.Machine.execRdAcc s
  -- spec/42_verify.md
  | .verify => Sys2Proof.Machine.execVerify s

end Sys2Proof.Machine
end

