-- ==== Sys2Proof/Machine/Step.lean ====
section
/-! DEFINITION. One step: the GSE accepts the command on its port, runs it and answers, or the host moves. -/

namespace Sys2Proof.Machine

/-- One accepted command, run and answered, is one atomic step (R2, R46). A command is accepted when it stands on the
command port and no response waits on the response port, since cmd_ready is 0 until that response is taken (R112). A
word that decodes to nothing raises ERR_ILLEGAL (R55). In every other state the host makes its next move. -/
def step (s : State) : Host.Outcome State Fault Refusal :=
  match s.cmdPort, s.rspPort with
  | some c, none =>
    match decode c with
    | .instr i => exec i { s with cmdPort := none }
    | .illegal why => .next (takeIllegal why { s with cmdPort := none })
  | _, _ => hostMove s

/-- `s` with a command placed where the next step accepts it: on the command port, with no response waiting. A
program comes from the host, one command at a time, and is stored nowhere (R18, R49; log 5). -/
def State.withFetchWord (s : State) (nbits w : Nat) : State := presentNow (commandOfBits nbits w) s

end Sys2Proof.Machine
end

