-- ==== Sys2Proof/Machine/Asm.lean ====
section
/-! DEFINITION. The assembler of spec/30_encoding.md R61 and R62: the host's own tool, beside the machine. The GSE
never sees an assembly line or a pseudo-instruction; it sees the commands they become. -/

namespace Sys2Proof.Machine

/-- LOAD_PT v1, ..., vn from index i on: one WR_PT per value (R62). -/
def loadPtFrom : Nat → List Word128 → List Instr
  | _, [] => []
  | i, v :: vs => .wrPt i v :: loadPtFrom (i + 1) vs

/-- LOAD_PT v1, ..., vn (R62). -/
def loadPtSeq (vs : List Word128) : List Instr := loadPtFrom 1 vs

/-- GHASH aad=A, ct=C, w1, ..., wq: START, one ABSORB per word, FINISH (R62). -/
def ghashSeq (a c : Word64) (ws : List Word128) : List Instr := .start a c :: ws.map .absorb ++ [.finish]

/-- CHECK ivs, tags, tag (R62). -/
def checkSeq (ivs tags tag : Word128) : List Instr := [.wrIvs ivs, .wrTags tags, .wrTag tag, .verify]

/-- The text cut at a separator. -/
def cutAt (sep : Char) : List Char → List (List Char)
  | [] => [[]]
  | c :: cs =>
    if c = sep then [] :: cutAt sep cs
    else
      match cutAt sep cs with
      | [] => [[c]]
      | w :: ws => (c :: w) :: ws

/-- The text without leading and trailing spaces. -/
def trimText (t : List Char) : List Char :=
  ((t.dropWhile (· = ' ')).reverse.dropWhile (· = ' ')).reverse

/-- The value of a digit below 16; a hexadecimal digit may have either case (DESIGN CHOICE, log 6). -/
def digitOf (c : Char) : Option Nat :=
  if '0' ≤ c ∧ c ≤ '9' then some (c.toNat - '0'.toNat)
  else if 'a' ≤ c ∧ c ≤ 'f' then some (c.toNat - 'a'.toNat + 10)
  else if 'A' ≤ c ∧ c ≤ 'F' then some (c.toNat - 'A'.toNat + 10)
  else none

/-- The number a digit string stands for in a base, on top of `n` for the digits before it. -/
def digitsFrom (base : Nat) : Nat → List Char → Option Nat
  | n, [] => some n
  | n, c :: cs =>
    match digitOf c with
    | some d => if d < base then digitsFrom base (base * n + d) cs else none
    | none => none

/-- A decimal number below `bound`; at least one digit (R61). Leading zeros are accepted (DESIGN CHOICE, log 6). -/
def decimal (bound : Nat) (t : List Char) : Option Nat :=
  if t = [] then none
  else
    match digitsFrom 10 0 t with
    | some n => if n < bound then some n else none
    | none => none

/-- `0x` and exactly `n` hexadecimal digits, the most significant first. -/
def hexDigits (n : Nat) : List Char → Option Nat
  | '0' :: 'x' :: t => if t.length = n then digitsFrom 16 0 t else none
  | _ => none

/-- A `<v128>`: `0x` and exactly 32 hexadecimal digits, with `_` between digits (R61). That `_` stands only between
digits, not before, in or right after `0x` and not at the end, and may stand there repeatedly, is the model's choice
(DESIGN CHOICE, log 6). -/
def v128 : List Char → Option Word128
  | '0' :: 'x' :: t =>
    if t.head? = some '_' ∨ t.getLast? = some '_' then none
    else (hexDigits 32 ('0' :: 'x' :: t.filter (· ≠ '_'))).map (BitVec.ofNat 128)
  | _ => none

/-- A field `<name>=<decimal>` below `bound` (R61). Spaces around `=` are accepted (DESIGN CHOICE, log 6). -/
def namedField (name : List Char) (bound : Nat) (t : List Char) : Option Nat :=
  match cutAt '=' t with
  | [n, v] => if trimText n = name then decimal bound (trimText v) else none
  | _ => none

/-- Every text of a list as a `<v128>`, or nothing. -/
def v128s : List (List Char) → Option (List Word128)
  | [] => some []
  | t :: ts =>
    match v128 t, v128s ts with
    | some v, some vs => some (v :: vs)
    | _, _ => none

/-- The two lengths of START and GHASH: unsigned 64-bit numbers (R61). -/
def lengths (aad ct : List Char) : Option (Word64 × Word64) :=
  match namedField "aad".toList (2 ^ 64) aad, namedField "ct".toList (2 ^ 64) ct with
  | some a, some c => some (BitVec.ofNat 64 a, BitVec.ofNat 64 c)
  | _, _ => none

/-- The commands of instructions. -/
def commandsOf (is : List Instr) : List Command := is.map encode

/-- A command of one operand that is a `<v128>`. -/
def oneWord (f : Word128 → Instr) : List (List Char) → Option (List Command)
  | [t] => (v128 t).map (fun v => commandsOf [f v])
  | _ => none

/-- A command without operands. -/
def noOperand (i : Instr) : List (List Char) → Option (List Command)
  | [] => some (commandsOf [i])
  | _ => none

/-- A line's mnemonic with its operand texts, as commands; nothing where the assembler refuses the line: an unknown
mnemonic, operands of another shape, an index of 0 or above 65535, a length of 2^64 or more, a value that has not 32
digits, a GHASH whose word count is not m - 1 (R61, R62). -/
def asmStatement (mnem : List Char) (args : List (List Char)) : Option (List Command) :=
  if mnem = "NOP".toList then noOperand .nop args
  else if mnem = "CLR".toList then noOperand .clr args
  else if mnem = "RD_STATUS".toList then noOperand .rdStatus args
  else if mnem = "FINISH".toList then noOperand .finish args
  else if mnem = "RD_ACC".toList then noOperand .rdAcc args
  else if mnem = "VERIFY".toList then noOperand .verify args
  else if mnem = "WR_IVS".toList then oneWord .wrIvs args
  else if mnem = "WR_TAGS".toList then oneWord .wrTags args
  else if mnem = "WR_TAG".toList then oneWord .wrTag args
  else if mnem = "ABSORB".toList then oneWord .absorb args
  else if mnem = "SET_CFG".toList then
    match args with
    | [t] => (namedField "norm".toList 2 t).map (fun n => commandsOf [.setCfg (BitVec.ofNat 128 n)])
    | _ => none
  else if mnem = "WR_PT".toList then
    match args with
    | [i, t] =>
      match decimal 65536 i, v128 t with
      | some idx, some v => if idx = 0 then none else some (commandsOf [.wrPt idx v])
      | _, _ => none
    | _ => none
  else if mnem = "START".toList then
    match args with
    | [aad, ct] => (lengths aad ct).map (fun l => commandsOf [.start l.1 l.2])
    | _ => none
  else if mnem = ".word".toList then
    match args with
    | [t] => (hexDigits 8 t).map (fun n => [⟨BitVec.ofNat 32 n, 0#128⟩])
    | _ => none
  else if mnem = "LOAD_PT".toList then
    match v128s args with
    | some vs => if 1 ≤ vs.length ∧ vs.length ≤ 65535 then some (commandsOf (loadPtSeq vs)) else none
    | none => none
  else if mnem = "GHASH".toList then
    match args with
    | aad :: ct :: rest =>
      match lengths aad ct, v128s rest with
      | some (a, c), some ws =>
        if 16 ≤ c.toNat ∧ ws.length + 1 = blockCount a c then some (commandsOf (ghashSeq a c ws)) else none
      | _, _ => none
    | _ => none
  else if mnem = "CHECK".toList then
    match v128s args with
    | some [ivs, tags, tag] => some (commandsOf (checkSeq ivs tags tag))
    | _ => none
  else none

/-- One assembly line: everything from `;` on is a comment (R61). A line without a command, blank or only a comment, is
accepted and stands for no command; that, and where spaces may stand, is the model's choice (DESIGN CHOICE, log 6). -/
def asmLine (line : List Char) : Option (List Command) :=
  let text := trimText (line.takeWhile (· ≠ ';'))
  let mnem := text.takeWhile (· ≠ ' ')
  let rest := trimText (text.dropWhile (· ≠ ' '))
  if text = [] then some []
  else asmStatement mnem (if rest = [] then [] else (cutAt ',' rest).map trimText)

/-- A program: its lines in order, or nothing if one of them is refused (DESIGN CHOICE, log 6). -/
def assemble : List (List Char) → Option (List Command)
  | [] => some []
  | l :: ls =>
    match asmLine l, assemble ls with
    | some cs, some ds => some (cs ++ ds)
    | _, _ => none

end Sys2Proof.Machine
end

