-- ==== Sys2Proof/Safety.lean ====
section
/-! DEFINITION. What claims about the GSE speak of: the invariant of R32, runs of commands, the transaction history,
the sums of R79 and R80, and states that agree but for the secret shares. -/

namespace Sys2Proof.Machine

/-- The invariant of every reachable state: R32, and with it the table's canonical form, the bounds of PT_DEPTH (R7)
and of the indices (R37), the lengths behind M (R81), the verdict's meaning (R28) and the values of ERRCODE (R29). -/
structure Inv (s : State) : Prop where
  depth_pos : 1 ≤ s.depth
  depth_le : s.depth ≤ 65535
  pt_wf : Table.wf s.pt
  pt_keys : ∀ e ∈ s.pt, 1 ≤ e.1 ∧ e.1 ≤ s.depth
  ptv_rising : s.ptv.Pairwise (· < ·)
  ptv_keys : ∀ i ∈ s.ptv, 1 ≤ i ∧ i ≤ s.depth
  idle_clear : s.evalState = .idle →
    s.acc = 0#128 ∧ s.m = 0#16 ∧ s.k = 0#16 ∧ s.lenA = 0#64 ∧ s.lenC = 0#64 ∧ s.vv = false
  active_run : s.evalState = .active →
    1 ≤ s.m.toNat ∧ s.m.toNat ≤ s.depth ∧ s.k.toNat + 1 ≤ s.m.toNat ∧
      ∀ j, 1 ≤ j → j ≤ s.m.toNat → ptValid s j = true
  done_full : s.evalState = .done → s.k = s.m ∧ 1 ≤ s.m.toNat
  lengths_count : s.evalState ≠ .idle → 16 ≤ s.lenC.toNat ∧ s.m.toNat = blockCount s.lenA s.lenC
  vv_done : s.vv = true → s.evalState = .done
  verdict_vv : s.vv = false → s.verdict = false
  verdict_current : s.vv = true →
    s.ivsV = true ∧ s.tagsV = true ∧ s.tagV = true ∧ s.verdict = decide (recon s = s.tag)
  errcode_known : s.errcode = 0#8 ∨ ∃ e, s.errcode = errByte e

/-- The response an outcome's state holds, if it is a next state. -/
def answer : Host.Outcome State Fault Refusal → Option Response
  | .next t => t.rspPort
  | .fault _ => none
  | .refused _ => none

/-- Commands run one after another, each taken off the response port before the next (R46): the meanings alone,
without the ports. -/
def execAll : List Instr → State → Host.Outcome State Fault Refusal
  | [], s => .next s
  | i :: is, s =>
    match exec i s with
    | .next t => execAll is t
    | .fault r => .fault r
    | .refused r => .refused r

/-- What a complying host does to have commands served: it presents each and takes its response (R112). -/
def served : List Command → List HostMove
  | [] => []
  | c :: cs => .present c :: .take :: served cs

/-- A response was produced by this step: the (command, response) pair it adds to the history (R46). -/
def transaction (s : State) : Option (Command × Response) :=
  match s.cmdPort, s.rspPort with
  | some c, none => (answer (step s)).map (fun r => (c, r))
  | _, _ => none

/-- The model's history over `n` steps: the (command, response) pairs in acceptance order (R46). -/
def history : Nat → State → List (Command × Response)
  | 0, _ => []
  | n + 1, s =>
    (transaction s).toList ++
      match step s with
      | .next t => history n t
      | .fault _ => []
      | .refused _ => []

/-- The clock cycles of commands from acceptance to response, summed (R117); no rule of the model depends on it. -/
def cyclesOf (is : List Instr) : Nat := (is.map (fun i => Config.lat (opcodeField (encode i).word))).sum

/-- Whether a command is accepted in a STATE, before any other check of its rule (the table of R95). -/
def acceptedIn : Instr → EvalState → Bool
  | .nop, _ => true
  | .rdStatus, _ => true
  | .clr, _ => true
  | .setCfg _, st => decide (st ≠ .active)
  | .wrPt _ _, st => decide (st ≠ .active)
  | .wrIvs _, st => decide (st ≠ .active)
  | .wrTags _, st => decide (st ≠ .active)
  | .wrTag _, st => decide (st ≠ .active)
  | .start _ _, st => decide (st ≠ .active)
  | .absorb _, st => decide (st = .active)
  | .finish, st => decide (st = .active)
  | .rdAcc, st => decide (st = .done)
  | .verify, st => decide (st = .done)

/-- STATE after a command that succeeds (R17, R95). -/
def stateAfter : Instr → EvalState → EvalState
  | .clr, _ => .idle
  | .start _ _, _ => .active
  | .finish, _ => .done
  | .nop, st => st
  | .rdStatus, st => st
  | .setCfg _, st => st
  | .wrPt _ _, st => st
  | .wrIvs _, st => st
  | .wrTags _, st => st
  | .wrTag _, st => st
  | .absorb _, st => st
  | .rdAcc, st => st
  | .verify, st => st

/-- The checks of a command's own pseudocode, in the order written there, each with the error it raises (R96). -/
def ownChecks : Instr → State → List (Bool × ErrCode)
  | .setCfg data, _ => [(decide (data.toNat / 2 ≠ 0), .illegal)]
  | .wrPt idx _, s => [(decide (idx = 0 ∨ s.depth < idx), .index)]
  | .start a c, s =>
    [(decide (c.toNat < 16), .tooShort),
     (decide (ptN s < (a.toNat + 15) / 16 + (c.toNat - 16 + 15) / 16 + 1), .insufficient)]
  | .absorb _, s => [(decide (s.k.toNat + 1 = s.m.toNat), .sequence)]
  | .finish, s => [(decide (s.k.toNat + 1 ≠ s.m.toNat), .sequence)]
  | .verify, s => [(decide (s.ivsV = false ∨ s.tagsV = false ∨ s.tagV = false), .notLoaded)]
  | .nop, _ => []
  | .clr, _ => []
  | .rdStatus, _ => []
  | .wrIvs _, _ => []
  | .wrTags _, _ => []
  | .wrTag _, _ => []
  | .rdAcc, _ => []

/-- The error a decoded command reports: the state check first, then its own checks in order; nothing when all pass
(R96). -/
def firstError (i : Instr) (s : State) : Option ErrCode :=
  (((decide (acceptedIn i s.evalState = false), ErrCode.sequence) :: ownChecks i s).find? (fun c => c.1)).map (fun c => c.2)

/-- The m products gmul(b_k, PT[m-k+1]) over the blocks b_1 … b_m (R79). -/
def products (share : Nat → Word128) : List Word128 → List Word128
  | [] => []
  | b :: bs => gmul b (share (bs.length + 1)) :: products share bs

/-- The xor of a list of words. -/
def xorAll : List Word128 → Word128
  | [] => 0#128
  | w :: ws => w ^^^ xorAll ws

/-- Σ_{k=1..m} gmul(b_k, PT[m-k+1]) over the blocks b_1 … b_m (R79). -/
def directSum (share : Nat → Word128) (bs : List Word128) : Word128 := xorAll (products share bs)

/-- The word with one bit set. -/
def oneBit (i : Nat) : Word128 := 1#128 <<< i

/-- The iterative GHASH_H from an accumulator: acc = (acc xor b) ⊗ H for each block (R80). -/
def ghashFrom (h : Word128) : Word128 → List Word128 → Word128
  | acc, [] => acc
  | acc, b :: bs => ghashFrom h (gmul (acc ^^^ b) h) bs

/-- H^(i+1), as products of H. -/
def powerFrom (h : Word128) : Nat → Word128
  | 0 => h
  | i + 1 => gmul (powerFrom h i) h

/-- H^i for i ≥ 1 (R20). -/
def hPower (h : Word128) (i : Nat) : Word128 := powerFrom h (i - 1)

/-- The data blocks b_k, b_(k+1), … of an evaluation with lengths a and c and m blocks, from the words the host sends:
each with its pad bytes cleared (R76, R78). -/
def dataBlocksFrom (a c : Word64) (m : Nat) : Nat → List Word128 → List Word128
  | _, [] => []
  | k, w :: ws => (w &&& maskw (nbytes a c m k)) :: dataBlocksFrom a c m (k + 1) ws

/-- All blocks b_1 … b_m of an evaluation: the data blocks, then the length block (R76). -/
def blocksOf (a c : Word64) (ws : List Word128) : List Word128 :=
  dataBlocksFrom a c (blockCount a c) 1 ws ++ [lenblock a c]

/-- What it takes to start an evaluation of these lengths, and to run it whole: START is accepted and finds its shares
(R81), and the host has one word per data block (R111). -/
structure Ready (a c : Word64) (ws : List Word128) (s : State) : Prop where
  inv : Inv s
  not_active : s.evalState ≠ .active
  long_enough : 16 ≤ c.toNat
  fits : blockCount a c ≤ s.depth
  loaded : allValid s (blockCount a c) = true
  words : ws.length + 1 = blockCount a c

/-- The three values VERIFY needs beside ACC are loaded (R86). -/
def Loaded (s : State) : Prop := s.ivsV = true ∧ s.tagsV = true ∧ s.tagV = true

/-- A whole verification after the loads: the evaluation, then VERIFY (R111). -/
def verification (a c : Word64) (ws : List Word128) : List Instr := ghashSeq a c ws ++ [.verify]

/-- Two states that differ at most in what was never written: PT entries whose valid bit is 0, and IVS, TAGS and TAG
while their valid bit is 0 (R33). -/
structure SameWritten (s t : State) : Prop where
  rest : t = { s with pt := t.pt, ivs := t.ivs, tags := t.tags, tag := t.tag }
  pt_valid : ∀ i, ptValid s i = true → tableRead t.pt i = tableRead s.pt i
  ivs_valid : s.ivsV = true → t.ivs = s.ivs
  tags_valid : s.tagsV = true → t.tags = s.tags
  tag_valid : s.tagV = true → t.tag = s.tag

/-- Two states that differ at most in the shares, the tag and the running sum. -/
def SamePublic (s t : State) : Prop :=
  t = { s with pt := t.pt, ivs := t.ivs, tags := t.tags, tag := t.tag, acc := t.acc }

end Sys2Proof.Machine
end

