-- ==== Sys2Proof/Certificates/Slice0/Obligations.lean ====
section
/-! DEFINITION. The statements about the GSE that the provers settle. Each docstring names the rules of spec/ it
formalises. -/

open Sys2Proof Sys2Proof.Machine

/-! ### Encoding -/

/-- Decoding the command of a well-formed instruction gives it back: no bit of an encoding is dropped (R52 to R56). -/
def Obligations.DecodeOfEncode : Prop :=
  ∀ i : Instr, i.wf = true → decode (encode i) = .instr i

/-- What decodes is well formed, and encoding it gives the command word back, and the data operand of every command
that takes one (R52 to R57). -/
def Obligations.EncodeOfDecode : Prop :=
  ∀ (c : Command) (i : Instr), decode c = .instr i →
    i.wf = true ∧ (encode i).word = c.word ∧ (takesData i = true → (encode i).data = c.data)

/-- R55: the word selects at most one row; a selected row is what decoding gives; a word that selects none raises
ERR_ILLEGAL with the abort; and whether a command decodes never depends on the data operand. -/
def Obligations.DecodingIsTotalAndUnambiguous : Prop :=
  (∀ (w : CmdWord) (i j : Fin opcodeTable.length),
    rowSelects opcodeTable[i] w = true → rowSelects opcodeTable[j] w = true → i = j) ∧
  (∀ (c : Command) (r : Row), r ∈ opcodeTable → rowSelects r c.word = true → decode c = .instr (r.build c)) ∧
  (∀ (s : State) (c : Command), s.cmdPort = some c → s.rspPort = none →
    (∀ r ∈ opcodeTable, rowSelects r c.word = false) →
      step s = .next (raise .illegal { s with cmdPort := none })) ∧
  (∀ (w : CmdWord) (d e : Word128),
    (∃ i, decode ⟨w, d⟩ = .instr i) ↔ (∃ i, decode ⟨w, e⟩ = .instr i))

/-- R59: a word with a reserved opcode, or with a nonzero reserved bit of its format, raises ERR_ILLEGAL, and so does
a reserved bit in the operand of SET_CFG outside ACTIVE; the only word that runs as NOP is NOP's. -/
def Obligations.ReservedEncodingsRaiseIllegal : Prop :=
  (∀ (s : State) (c : Command), s.cmdPort = some c → s.rspPort = none →
    (let op := c.word.toNat / 2 ^ 24
     (4 ≤ op ∧ op ≤ 0x0F) ∨ (0x14 ≤ op ∧ op ≤ 0x1F) ∨ (0x24 ≤ op ∧ op ≤ 0x2F) ∨ 0x31 ≤ op ∨
      (op ≠ 0x10 ∧ c.word.toNat % 2 ^ 24 ≠ 0) ∨ (op = 0x10 ∧ c.word.toNat / 2 ^ 16 % 2 ^ 8 ≠ 0)) →
      step s = .next (raise .illegal { s with cmdPort := none })) ∧
  (∀ (s : State) (d : Word128), s.evalState ≠ .active → 2 ≤ d.toNat →
    exec (.setCfg d) s = .next (raise .illegal s)) ∧
  (∀ c : Command, decode c = .instr .nop ↔ c.word = 0#32)

/-- One word of every command, with the instruction it stands for (R54). -/
def Obligations.SampleWordsDecode : Prop :=
  ∀ d : Word128,
    decode ⟨0x00000000#32, d⟩ = .instr .nop ∧ decode ⟨0x01000000#32, d⟩ = .instr .clr ∧
    decode ⟨0x02000000#32, d⟩ = .instr (.setCfg d) ∧ decode ⟨0x03000000#32, d⟩ = .instr .rdStatus ∧
    decode ⟨0x10000003#32, d⟩ = .instr (.wrPt 3 d) ∧ decode ⟨0x1000FFFF#32, d⟩ = .instr (.wrPt 65535 d) ∧
    decode ⟨0x11000000#32, d⟩ = .instr (.wrIvs d) ∧ decode ⟨0x12000000#32, d⟩ = .instr (.wrTags d) ∧
    decode ⟨0x13000000#32, d⟩ = .instr (.wrTag d) ∧
    decode ⟨0x20000000#32, 0x00000000000000140000000000000021#128⟩ = .instr (.start 20#64 33#64) ∧
    decode ⟨0x21000000#32, d⟩ = .instr (.absorb d) ∧ decode ⟨0x22000000#32, d⟩ = .instr .finish ∧
    decode ⟨0x23000000#32, d⟩ = .instr .rdAcc ∧ decode ⟨0x30000000#32, d⟩ = .instr .verify

/-! ### The step, reset and the ports -/

/-- A step runs the decoded command: with a command on the command port and no response waiting, the step is the
command's meaning on the state with the command taken off the port (R2, R46, R112). -/
def Obligations.StepRunsTheDecodedCommand : Prop :=
  ∀ (s : State) (c : Command) (i : Instr), s.cmdPort = some c → s.rspPort = none → decode c = .instr i →
    step s = exec i { s with cmdPort := none }

/-- R108: every register after reset; PT's contents are unspecified there and not stated here. -/
def Obligations.ResetRegisters : Prop :=
  State.reset.evalState = .idle ∧ State.reset.norm = true ∧ (∀ i, ptValid State.reset i = false) ∧
  State.reset.ivsV = false ∧ State.reset.tagsV = false ∧ State.reset.tagV = false ∧
  State.reset.ivs = 0#128 ∧ State.reset.tags = 0#128 ∧ State.reset.tag = 0#128 ∧
  State.reset.acc = 0#128 ∧ State.reset.lenA = 0#64 ∧ State.reset.lenC = 0#64 ∧
  State.reset.m = 0#16 ∧ State.reset.k = 0#16 ∧ State.reset.verdict = false ∧ State.reset.vv = false ∧
  State.reset.errcode = 0#8 ∧ 1 ≤ State.reset.depth ∧ State.reset.depth ≤ 65535

/-- A reset move, in a state whose next step accepts no command, leaves the registers of the reset state and discards a
response not yet taken (R107 to R109). That a command the GSE has not accepted stays presented through the reset is the
model's reading of R112 (DEDUCED, log 10); a state with a command waiting and no response accepts that command first
(DESIGN CHOICE, log 5) and is not covered; and nothing is stated of PT's contents, which are the model's choice (log 4). -/
def Obligations.ResetLeavesTheResetRegisters : Prop :=
  ∀ (s : State) (rest : List HostMove), s.host = .reset :: rest → (s.cmdPort = none ∨ s.rspPort ≠ none) →
    ∃ t, step s = .next t ∧
      t = { State.resetWith s.depth with pt := t.pt, cmdPort := s.cmdPort, host := rest }

/-- What the host's moves do at the ports: none leaves the state as it is (R106); a presented command stands on the
command port; a response is taken; a host that presents while a command waits has no move (R112, R114). -/
def Obligations.HostMovesAtThePorts : Prop :=
  ∀ (s : State), (s.cmdPort = none ∨ s.rspPort ≠ none) →
    (s.host = [] → step s = .next s) ∧
    (∀ rest, s.host = .take :: rest → step s = .next { s with rspPort := none, host := rest }) ∧
    (∀ c rest, s.host = .present c :: rest → s.cmdPort = none →
      step s = .next { s with cmdPort := some c, host := rest }) ∧
    (∀ c rest, s.host = .present c :: rest → s.cmdPort ≠ none → step s = .refused .handshakeBroken)

/-- cmd_ready is 0 from a command's acceptance until its response is taken: while a response waits, no step but a
reset changes a register, and a waiting command stays where it is (R46, R112). -/
def Obligations.NoCommandWhileAResponseWaits : Prop :=
  ∀ (s t : State) (r : Response), s.rspPort = some r → step s = .next t →
    (∀ rest, s.host ≠ .reset :: rest) →
      t = { s with cmdPort := t.cmdPort, rspPort := t.rspPort, host := t.host } ∧
      (s.cmdPort ≠ none → t.cmdPort = s.cmdPort) ∧ (t.rspPort = some r ∨ t.rspPort = none)

/-- Commands take effect one at a time in the order a complying host sends them, and every one gets exactly one
response: from a state with idle ports the run serves them all, and the history lists them in order (R46, R51). -/
def Obligations.CommandsAreServedInOrder : Prop :=
  ∀ (cs : List Command) (s : State) (rest : List HostMove), Inv s → s.cmdPort = none → s.rspPort = none →
    s.host = served cs ++ rest →
      ∃ t, core.run (3 * cs.length) s = .next t ∧ t.host = rest ∧ t.cmdPort = none ∧ t.rspPort = none ∧
        (history (3 * cs.length) s).map Prod.fst = cs

/-- The reset state meets the invariant, for every PT_DEPTH of 1..65535 (R32, R108). -/
def Obligations.ResetMeetsTheInvariant : Prop :=
  (∀ n, 1 ≤ n → n ≤ 65535 → Inv (State.resetWith n)) ∧ Inv State.reset

/-- Every step keeps the invariant, from every state that meets it (R32; its clauses on the table's canonical form are
the model's representation, log 4). -/
def Obligations.StepKeepsTheInvariant : Prop :=
  ∀ s t : State, Inv s → step s = .next t → Inv t

/-- R32, in its own words, of every state a run from reset reaches, whatever the host does. -/
def Obligations.ReachableStatesSatisfyR32 : Prop :=
  ∀ (depth : Nat) (moves : List HostMove) (n : Nat) (t : State), 1 ≤ depth → depth ≤ 65535 →
    core.run n { State.resetWith depth with host := moves } = .next t →
      (t.evalState = .idle →
        t.acc = 0#128 ∧ t.m = 0#16 ∧ t.k = 0#16 ∧ t.lenA = 0#64 ∧ t.lenC = 0#64 ∧ t.vv = false) ∧
      (t.evalState = .active →
        1 ≤ t.m.toNat ∧ t.m.toNat ≤ depth ∧ t.k.toNat ≤ t.m.toNat - 1 ∧
          ∀ j, 1 ≤ j → j ≤ t.m.toNat → ptValid t j = true) ∧
      (t.evalState = .done → t.k = t.m ∧ 1 ≤ t.m.toNat) ∧
      (t.vv = true → t.evalState = .done) ∧
      (t.vv = false → t.verdict = false)

/-- No fault from a state that meets the invariant; and the only step refused is that of a host that breaks the
handshake (R37, R114). -/
def Obligations.NoFaultUnderTheInvariant : Prop :=
  ∀ s : State, Inv s →
    (∃ t, step s = .next t) ∨
      (step s = .refused .handshakeBroken ∧ ∃ c rest, s.host = .present c :: rest ∧ s.cmdPort ≠ none)

/-- PT_DEPTH is constant: no step changes it (R7, R31). -/
def Obligations.DepthIsConstant : Prop :=
  ∀ s t : State, step s = .next t → t.depth = s.depth

/-! ### Responses and errors -/

/-- R97: every error response performs the abort and nothing else, whether a command or a word that does not decode
raises it: the evaluation and the verdict are cleared, ERRCODE takes the code, and PT, PT_V, IVS, TAGS, TAG, their valid
bits and CFG.NORM are kept. -/
def Obligations.EveryErrorAborts : Prop :=
  let aborted (e : ErrCode) (s : State) : State :=
    { s with
      evalState := .idle
      acc := 0#128, lenA := 0#64, lenC := 0#64, m := 0#16, k := 0#16
      vv := false, verdict := false
      errcode := rspByte (.err e)
      rspPort := some ⟨.err e, 0#128⟩ }
  (∀ (i : Instr) (s t : State) (e : ErrCode) (d : Word128), exec i s = .next t → t.rspPort = some ⟨.err e, d⟩ →
    t = aborted e s) ∧
  (∀ (s : State) (c : Command) (why : DecodeError), s.cmdPort = some c → s.rspPort = none → decode c = .illegal why →
    step s = .next { aborted .illegal s with cmdPort := none })

/-- R95: a command that STATE does not accept raises ERR_SEQUENCE before any other check; every other runs its rule:
it answers ERR_SEQUENCE only for a wrong block count, and a success leaves STATE as the table says. -/
def Obligations.CommandsAcceptedInEachState : Prop :=
  ∀ (i : Instr) (s : State),
    (acceptedIn i s.evalState = false → exec i s = .next (raise .sequence s)) ∧
    (acceptedIn i s.evalState = true →
      (∀ t d, exec i s = .next t → t.rspPort = some ⟨.err .sequence, d⟩ →
        (∃ w, i = .absorb w ∧ s.k.toNat + 1 = s.m.toNat) ∨ (i = .finish ∧ s.k.toNat + 1 ≠ s.m.toNat)) ∧
      (∀ t code d, exec i s = .next t → t.rspPort = some ⟨code, d⟩ → (∀ e, code ≠ .err e) →
        t.evalState = stateAfter i s.evalState))

/-- R96: a decoded command reports the first error in the order of the list, the state before its own checks and those
in pseudocode order, and no error when every check passes; a word that does not decode is ERR_ILLEGAL before all. -/
def Obligations.TheFirstErrorIsReported : Prop :=
  (∀ (i : Instr) (s : State), Inv s →
    (∀ e, firstError i s = some e → exec i s = .next (raise e s)) ∧
    (firstError i s = none → ∃ t r, exec i s = .next t ∧ t.rspPort = some r ∧ ∀ e, r.code ≠ .err e)) ∧
  (∀ (s : State) (c : Command) (why : DecodeError), s.cmdPort = some c → s.rspPort = none →
    decode c = .illegal why → step s = .next (raise .illegal { s with cmdPort := none }))

/-- R29: ERRCODE is 0 after reset, holds the code of the last error or 0 after CLR, and is written by nothing but an
error, CLR and reset. -/
def Obligations.ErrcodeIsTheLastError : Prop :=
  State.reset.errcode = 0#8 ∧
  (∀ (i : Instr) (s t : State) (code : RspCode) (d : Word128), exec i s = .next t → t.rspPort = some ⟨code, d⟩ →
    ((∃ e, code = .err e) → t.errcode = rspByte code) ∧
    (i = .clr → t.errcode = 0#8) ∧
    ((∀ e, code ≠ .err e) → i ≠ .clr → t.errcode = s.errcode)) ∧
  (∀ s t : State, step s = .next t →
    t.errcode = s.errcode ∨
    (∃ e, t.rspPort = some ⟨.err e, 0#128⟩ ∧ t.errcode = rspByte (.err e)) ∨
    (∃ c, s.cmdPort = some c ∧ decode c = .instr .clr ∧ t.errcode = 0#8) ∨
    (∃ rest, s.host = .reset :: rest ∧ t.errcode = 0#8))

/-- R58: every response's datum is 0^128, except the STATUS view of RD_STATUS and ACC of a successful RD_ACC. -/
def Obligations.ResponseDatumIsZeroUnlessRead : Prop :=
  (∀ (i : Instr) (s t : State), exec i s = .next t → ∃ r, t.rspPort = some r ∧
    ((∃ e, r.code = .err e) → r.data = 0#128) ∧
    (i = .rdStatus → r.data = statusView s) ∧
    (i = .rdAcc → r.code = .ok → r.data = s.acc) ∧
    (i ≠ .rdStatus → i ≠ .rdAcc → r.data = 0#128)) ∧
  (∀ (e : ErrCode) (s : State), (raise e s).rspPort = some ⟨.err e, 0#128⟩)

/-- R93: the nine codes and their values; bit 7 marks an error; PASS and FAIL are VERIFY's alone, and OK is every
other command's; and which commands raise each error. -/
def Obligations.WhichCommandAnswersWhichCode : Prop :=
  (rspByte .ok = 0x00#8 ∧ rspByte .pass = 0x01#8 ∧ rspByte .fail = 0x02#8 ∧ rspByte (.err .illegal) = 0x81#8 ∧
    rspByte (.err .sequence) = 0x82#8 ∧ rspByte (.err .index) = 0x83#8 ∧ rspByte (.err .tooShort) = 0x84#8 ∧
    rspByte (.err .insufficient) = 0x85#8 ∧ rspByte (.err .notLoaded) = 0x86#8) ∧
  (∀ c : RspCode, (rspByte c).getLsbD 7 = true ↔ ∃ e, c = .err e) ∧
  (∀ (i : Instr) (s t : State) (r : Response), exec i s = .next t → t.rspPort = some r →
    (r.code = .ok → i ≠ .verify) ∧
    (r.code = .pass → i = .verify ∧ t.verdict = true) ∧
    (r.code = .fail → i = .verify ∧ t.verdict = false) ∧
    (r.code = .err .illegal → ∃ d, i = .setCfg d) ∧
    (r.code = .err .sequence → i ≠ .nop ∧ i ≠ .clr ∧ i ≠ .rdStatus) ∧
    (r.code = .err .index → ∃ idx v, i = .wrPt idx v) ∧
    (r.code = .err .tooShort → ∃ a c, i = .start a c) ∧
    (r.code = .err .insufficient → ∃ a c, i = .start a c) ∧
    (r.code = .err .notLoaded → i = .verify))

/-! ### Control commands -/

/-- R89: NOP, in every state, answers (OK, 0^128) and changes nothing; any other word of its opcode is illegal. -/
def Obligations.NopDoesNothing : Prop :=
  (∀ s : State, exec .nop s = .next { s with rspPort := some ⟨.ok, 0#128⟩ }) ∧
  (∀ (w : CmdWord) (d : Word128), w.toNat < 2 ^ 24 →
    (w = 0#32 → decode ⟨w, d⟩ = .instr .nop) ∧ (w ≠ 0#32 → ∃ why, decode ⟨w, d⟩ = .illegal why))

/-- R90: CLR, in every state, puts every register at its reset value, PT's contents at 0^128, and answers OK; the ports
and PT_DEPTH are as before. -/
def Obligations.ClrReturnsEveryRegisterToReset : Prop :=
  (∀ d : Word128, decode ⟨0x01000000#32, d⟩ = .instr .clr) ∧
  ∀ s : State, ∃ t, exec .clr s = .next t ∧
    (∀ i, tableRead t.pt i = 0#128 ∧ ptValid t i = false) ∧
    t = { s with
      evalState := .idle, norm := true
      pt := t.pt, ptv := t.ptv
      ivs := 0#128, ivsV := false, tags := 0#128, tagsV := false, tag := 0#128, tagV := false
      acc := 0#128, lenA := 0#64, lenC := 0#64, m := 0#16, k := 0#16
      verdict := false, vv := false, errcode := 0#8
      rspPort := some ⟨.ok, 0#128⟩ }

/-- R91: SET_CFG outside ACTIVE, with bits 127:1 zero, writes CFG.NORM, invalidates every table entry and IVS and the
verdict, and keeps all else; in ACTIVE it is ERR_SEQUENCE whatever the operand, and else a nonzero reserved bit is
ERR_ILLEGAL. -/
def Obligations.SetCfgInvalidatesEveryShare : Prop :=
  (∀ d : Word128, decode ⟨0x02000000#32, d⟩ = .instr (.setCfg d)) ∧
  ∀ (s : State) (d : Word128),
    (s.evalState = .active → exec (.setCfg d) s = .next (raise .sequence s)) ∧
    (s.evalState ≠ .active → 2 ≤ d.toNat → exec (.setCfg d) s = .next (raise .illegal s)) ∧
    (s.evalState ≠ .active → d.toNat < 2 → ∃ t, exec (.setCfg d) s = .next t ∧
      (∀ i, ptValid t i = false) ∧
      t = { s with
        norm := decide (d.toNat = 1), ptv := t.ptv, ivsV := false, vv := false, verdict := false
        rspPort := some ⟨.ok, 0#128⟩ })

/-- R92: RD_STATUS, in every state, answers (OK, STATUS) and changes nothing else. -/
def Obligations.RdStatusReturnsTheView : Prop :=
  (∀ d : Word128, decode ⟨0x03000000#32, d⟩ = .instr .rdStatus) ∧
  ∀ s : State, exec .rdStatus s = .next { s with rspPort := some ⟨.ok, statusView s⟩ }

/-- R31: every field of STATUS, and its value after reset. -/
def Obligations.StatusFieldsAreWhereR31SaysTheyAre : Prop :=
  (∀ s : State,
    ((statusView s).extractLsb' 0 2).toNat = (match s.evalState with | .idle => 0 | .active => 1 | .done => 2) ∧
    (statusView s).getLsbD 2 = s.norm ∧ (statusView s).getLsbD 3 = s.ivsV ∧
    (statusView s).getLsbD 4 = s.tagsV ∧ (statusView s).getLsbD 5 = s.tagV ∧
    (statusView s).getLsbD 6 = s.vv ∧ (statusView s).getLsbD 7 = s.verdict ∧
    (statusView s).extractLsb' 8 8 = s.errcode ∧
    (statusView s).extractLsb' 16 16 = BitVec.ofNat 16 (ptN s) ∧
    (statusView s).extractLsb' 32 16 = s.m ∧ (statusView s).extractLsb' 48 16 = s.k ∧
    (statusView s).extractLsb' 64 16 = BitVec.ofNat 16 s.depth ∧
    (statusView s).extractLsb' 80 48 = 0#48) ∧
  (∀ n, 1 ≤ n → n ≤ 65535 →
    (statusView (State.resetWith n)).toNat = n * 2 ^ 64 + 4)

/-- PT_N is the largest n in 0..PT_DEPTH such that the entries 1..n are all valid (R21). -/
def Obligations.PtNIsTheLongestValidRun : Prop :=
  ∀ s : State, ptN s ≤ s.depth ∧ (∀ j, 1 ≤ j → j ≤ ptN s → ptValid s j = true) ∧
    ∀ n, n ≤ s.depth → (∀ j, 1 ≤ j → j ≤ n → ptValid s j = true) → n ≤ ptN s

/-- The valid bits say what has been written: they are 0 after reset; a successful write sets its own; CLR clears all,
and SET_CFG those of the table and of IVS; nothing else changes one (R21 to R24). -/
def Obligations.ValidBitsFollowTheWrites : Prop :=
  ∀ (i : Instr) (s t : State) (r : Response), exec i s = .next t → t.rspPort = some r →
    (∀ j, ptValid t j = true ↔
      ((∃ v, i = .wrPt j v) ∧ r.code = .ok) ∨
        (ptValid s j = true ∧ i ≠ .clr ∧ ¬((∃ d, i = .setCfg d) ∧ r.code = .ok))) ∧
    (t.ivsV = true ↔
      ((∃ v, i = .wrIvs v) ∧ r.code = .ok) ∨
        (s.ivsV = true ∧ i ≠ .clr ∧ ¬((∃ d, i = .setCfg d) ∧ r.code = .ok))) ∧
    (t.tagsV = true ↔ ((∃ v, i = .wrTags v) ∧ r.code = .ok) ∨ (s.tagsV = true ∧ i ≠ .clr)) ∧
    (t.tagV = true ↔ ((∃ v, i = .wrTag v) ∧ r.code = .ok) ∨ (s.tagV = true ∧ i ≠ .clr))

/-- A valid verdict belongs to the current registers: every command that leaves VV at 1, but VERIFY itself, found it at 1
and has left VERDICT and all four operands of VERIFY as they were (R28). -/
def Obligations.AValidVerdictIsCurrent : Prop :=
  ∀ (i : Instr) (s t : State), Inv s → i ≠ .verify → exec i s = .next t → t.vv = true →
    s.vv = true ∧ t.verdict = s.verdict ∧ t.acc = s.acc ∧ t.ivs = s.ivs ∧ t.tags = s.tags ∧ t.tag = s.tag

/-! ### Load commands -/

/-- R63: byte j of the byte swap is byte 15 - j, bit i of the reversal is bit 127 - i, and norm is the one after the
other. -/
def Obligations.NormIsByteSwapThenBitReversal : Prop :=
  (∀ (x : Word128) (j : Nat), j < 16 → byteOf (byteSwap x) j = byteOf x (15 - j)) ∧
  (∀ (y : Word128) (i : Nat), i < 128 → (bitReverse y).getLsbD i = y.getLsbD (127 - i)) ∧
  ∀ x : Word128, normWord x = bitReverse (byteSwap x)

/-- R64: norm reverses the eight bits of every byte and keeps each byte in its place. -/
def Obligations.NormReversesTheBitsOfEachByte : Prop :=
  ∀ (x : Word128) (j i : Nat), j < 16 → i < 8 →
    (byteOf (normWord x) j).getLsbD i = (byteOf x j).getLsbD (7 - i)

/-- R65: norm is its own inverse. -/
def Obligations.NormIsSelfInverse : Prop :=
  ∀ x : Word128, normWord (normWord x) = x

/-- WR_PT outside ACTIVE with an index of 1..PT_DEPTH stores the share, normalised when CFG.NORM = 1, sets the entry's
valid bit, and changes no other entry and no other register; in ACTIVE it is ERR_SEQUENCE, and else an index of 0 or above
PT_DEPTH is ERR_INDEX (R67). The premise and the clause that the table has its canonical form are about the model's
representation of PT (DESIGN CHOICE, log 4), not about R67. -/
def Obligations.WrPtWritesOneEntry : Prop :=
  (∀ (idx : Nat) (v : Word128), idx < 2 ^ 16 → decode ⟨BitVec.ofNat 32 (0x10000000 + idx), v⟩ = .instr (.wrPt idx v)) ∧
  ∀ (s : State) (idx : Nat) (v : Word128), Table.wf s.pt →
    (s.evalState = .active → exec (.wrPt idx v) s = .next (raise .sequence s)) ∧
    (s.evalState ≠ .active → (idx = 0 ∨ s.depth < idx) → exec (.wrPt idx v) s = .next (raise .index s)) ∧
    (s.evalState ≠ .active → 1 ≤ idx → idx ≤ s.depth → ∃ t, exec (.wrPt idx v) s = .next t ∧
      tableRead t.pt idx = (if s.norm then normWord v else v) ∧
      (∀ j, j ≠ idx → tableRead t.pt j = tableRead s.pt j) ∧
      (∀ j, ptValid t j = true ↔ j = idx ∨ ptValid s j = true) ∧
      Table.wf t.pt ∧
      t = { s with pt := t.pt, ptv := t.ptv, rspPort := some ⟨.ok, 0#128⟩ })

/-- R68: WR_IVS outside ACTIVE stores the share, normalised when CFG.NORM = 1, and drops the verdict. -/
def Obligations.WrIvsWritesTheShare : Prop :=
  (∀ v : Word128, decode ⟨0x11000000#32, v⟩ = .instr (.wrIvs v)) ∧
  ∀ (s : State) (v : Word128),
    (s.evalState = .active → exec (.wrIvs v) s = .next (raise .sequence s)) ∧
    (s.evalState ≠ .active → exec (.wrIvs v) s = .next
      { s with
        ivs := if s.norm then normWord v else v
        ivsV := true, vv := false, verdict := false, rspPort := some ⟨.ok, 0#128⟩ })

/-- R69: WR_TAGS outside ACTIVE stores the tag share as it is, whatever CFG.NORM, and drops the verdict. -/
def Obligations.WrTagsWritesTheTagShare : Prop :=
  (∀ v : Word128, decode ⟨0x12000000#32, v⟩ = .instr (.wrTags v)) ∧
  ∀ (s : State) (v : Word128),
    (s.evalState = .active → exec (.wrTags v) s = .next (raise .sequence s)) ∧
    (s.evalState ≠ .active → exec (.wrTags v) s = .next
      { s with tags := v, tagsV := true, vv := false, verdict := false, rspPort := some ⟨.ok, 0#128⟩ })

/-- R70: WR_TAG outside ACTIVE stores the tag as it is, whatever CFG.NORM, and drops the verdict. -/
def Obligations.WrTagWritesTheTag : Prop :=
  (∀ v : Word128, decode ⟨0x13000000#32, v⟩ = .instr (.wrTag v)) ∧
  ∀ (s : State) (v : Word128),
    (s.evalState = .active → exec (.wrTag v) s = .next (raise .sequence s)) ∧
    (s.evalState ≠ .active → exec (.wrTag v) s = .next
      { s with tag := v, tagV := true, vv := false, verdict := false, rspPort := some ⟨.ok, 0#128⟩ })

/-- R43: the writes and SET_CFG that succeed leave the same state when issued twice, VERIFY repeats its answer, and a
successful read leaves every register as it was. -/
def Obligations.RepeatedCommandsChangeNothing : Prop :=
  ∀ (i : Instr) (s t : State) (r : Response), Inv s → exec i s = .next t → t.rspPort = some r →
    (∀ e, r.code ≠ .err e) →
      ((∃ idx v, i = .wrPt idx v) ∨ (∃ v, i = .wrIvs v) ∨ (∃ v, i = .wrTags v) ∨ (∃ v, i = .wrTag v) ∨
        (∃ d, i = .setCfg d) ∨ i = .verify → exec i t = .next t) ∧
      (i = .rdStatus ∨ i = .rdAcc → t = { s with rspPort := t.rspPort } ∧ exec i t = .next t)

/-! ### The evaluation -/

/-- A word as the polynomial of R71: word bit 127 - i is the coefficient of X^i. -/
noncomputable def Sys2Proof.Machine.polyOf (w : Word128) : Polynomial (ZMod 2) :=
  ∑ i ∈ Finset.range 128, if w.getLsbD (127 - i) then Polynomial.X ^ i else 0

/-- X^128 + X^7 + X^2 + X + 1 (R71). -/
noncomputable def Sys2Proof.Machine.gcmModulus : Polynomial (ZMod 2) :=
  Polynomial.X ^ 128 + Polynomial.X ^ 7 + Polynomial.X ^ 2 + Polynomial.X + 1

/-- R71: gmul(x, y) is the word of x(X)·y(X) mod (X^128 + X^7 + X^2 + X + 1). -/
def Obligations.GmulIsMultiplicationModuloTheGcmPolynomial : Prop :=
  ∀ x y : Word128, polyOf (gmul x y) = (polyOf x * polyOf y) %ₘ gcmModulus

/-- R72: gmul is commutative and associative, 0^128 annihilates, ONE is the identity, and it distributes over xor. -/
def Obligations.GmulIsCommutativeAssociativeAndDistributesOverXor : Prop :=
  (∀ a b : Word128, gmul a b = gmul b a) ∧ (∀ b : Word128, gmul 0#128 b = 0#128) ∧
  (∀ b : Word128, gmul 0x80000000000000000000000000000000#128 b = b) ∧
  (∀ a b c : Word128, gmul (a ^^^ c) b = gmul a b ^^^ gmul c b) ∧
  (∀ a b c : Word128, gmul (gmul a b) c = gmul a (gmul b c))

/-- R78: block k is the operand with every byte from nbytes(k) on cleared, and nbytes(k) is R78's number of bytes. -/
def Obligations.PadBytesAreCleared : Prop :=
  (∀ (w : Word128) (n j : Nat), j < 16 → n ≤ 16 →
    byteOf (w &&& maskw n) j = if j < n then byteOf w j else 0#8) ∧
  (∀ (s : State) (k : Nat) (w : Word128), 16 ≤ s.lenC.toNat →
    s.m.toNat = (s.lenA.toNat + 15) / 16 + (s.lenC.toNat - 16 + 15) / 16 + 1 → 1 ≤ k → k ≤ s.m.toNat - 1 →
      (let nA := (s.lenA.toNat + 15) / 16
       let r := if k ≤ nA then s.lenA.toNat % 16 else (s.lenC.toNat - 16) % 16
       maskedBlock s k w = w &&& maskw (if (k = nA ∨ k = s.m.toNat - 1 ∧ nA < k) ∧ r ≠ 0 then r else 16)))

/-- R77: the two halves of the length block are the exact bit-lengths of AAD and body, at every length whose block
count START can accept. -/
def Obligations.LengthBlockHoldsTheBitLengths : Prop :=
  ∀ a c : Word64, 16 ≤ c.toNat → (a.toNat + 15) / 16 + (c.toNat - 16 + 15) / 16 + 1 ≤ 65535 →
    ((lenblock a c).extractLsb' 64 64).toNat = 8 * a.toNat ∧
    ((lenblock a c).extractLsb' 0 64).toNat = 8 * (c.toNat - 16) ∧
    a.toNat < 2 ^ 20 ∧ c.toNat - 16 < 2 ^ 20

/-- The word of a partial block, whatever its pad bytes, masks to the block padded with zeros on the right (R39, R74,
R78). -/
def Obligations.AnyPadBytesGiveTheZeroPaddedBlock : Prop :=
  ∀ bytes pad : List Byte, bytes.length + pad.length = 16 →
    wordOfBytes (bytes ++ pad) &&& maskw bytes.length = wordOfBytes bytes

/-- R81: START outside ACTIVE with C ≥ 16, m ≤ PT_DEPTH and every entry 1..m valid begins an evaluation; every other
START raises the error of its first failing check, and the last of them is m > PT_N. -/
def Obligations.StartBeginsAnEvaluation : Prop :=
  (∀ a c : Word64, decode ⟨0x20000000#32, a ++ c⟩ = .instr (.start a c)) ∧
  ∀ (s : State) (a c : Word64), s.depth ≤ 65535 →
    let m := (a.toNat + 15) / 16 + (c.toNat - 16 + 15) / 16 + 1
    (s.evalState = .active → exec (.start a c) s = .next (raise .sequence s)) ∧
    (s.evalState ≠ .active → c.toNat < 16 → exec (.start a c) s = .next (raise .tooShort s)) ∧
    (s.evalState ≠ .active → 16 ≤ c.toNat →
      (s.depth < m ∨ ∃ j, 1 ≤ j ∧ j ≤ m ∧ ptValid s j = false) →
        exec (.start a c) s = .next (raise .insufficient s)) ∧
    (s.evalState ≠ .active → 16 ≤ c.toNat → m ≤ s.depth → (∀ j, 1 ≤ j → j ≤ m → ptValid s j = true) →
      exec (.start a c) s = .next
        { s with
          lenA := a, lenC := c, m := BitVec.ofNat 16 m, k := 0#16, acc := 0#128
          vv := false, verdict := false, evalState := .active, rspPort := some ⟨.ok, 0#128⟩ } ∧
      (BitVec.ofNat 16 m).toNat = m) ∧
    (ptN s < m ↔ s.depth < m ∨ ∃ j, 1 ≤ j ∧ j ≤ m ∧ ptValid s j = false)

/-- START outside ACTIVE with C ≥ 16 answers ERR_INSUFFICIENT exactly when m > PT_N (R81). -/
def Obligations.StartNeedsMEntriesWithoutAGap : Prop :=
  ∀ (s : State) (a c : Word64), s.evalState ≠ .active → 16 ≤ c.toNat →
    ((∃ t d, exec (.start a c) s = .next t ∧ t.rspPort = some ⟨.err .insufficient, d⟩) ↔
      ptN s < (a.toNat + 15) / 16 + (c.toNat - 16 + 15) / 16 + 1)

/-- R82: ABSORB in ACTIVE with K ≠ M - 1 adds the product of the masked operand and PT[M - k + 1] to ACC, k = K + 1,
counts it in K, and changes nothing else; every other ABSORB is ERR_SEQUENCE. -/
def Obligations.AbsorbFoldsTheNextBlock : Prop :=
  (∀ w : Word128, decode ⟨0x21000000#32, w⟩ = .instr (.absorb w)) ∧
  ∀ (s : State) (w : Word128), Inv s →
    (s.evalState ≠ .active → exec (.absorb w) s = .next (raise .sequence s)) ∧
    (s.evalState = .active → s.k.toNat + 1 = s.m.toNat → exec (.absorb w) s = .next (raise .sequence s)) ∧
    (s.evalState = .active → s.k.toNat + 1 ≠ s.m.toNat →
      let k := s.k.toNat + 1
      let nA := (s.lenA.toNat + 15) / 16
      let r := if k ≤ nA then s.lenA.toNat % 16 else (s.lenC.toNat - 16) % 16
      let last := if k ≤ nA then k = nA else k + 1 = s.m.toNat
      let n := if last ∧ r ≠ 0 then r else 16
      exec (.absorb w) s = .next
        { s with
          acc := s.acc ^^^ gmul (w &&& BitVec.allOnes 128 <<< (128 - 8 * n)) (tableRead s.pt (s.m.toNat - k + 1))
          k := s.k + 1#16
          rspPort := some ⟨.ok, 0#128⟩ })

/-- R83: FINISH in ACTIVE with K = M - 1 adds the product of the length block and PT[1] to ACC, and the evaluation is
DONE; every other FINISH is ERR_SEQUENCE. -/
def Obligations.FinishFoldsTheLengthBlock : Prop :=
  (∀ d : Word128, decode ⟨0x22000000#32, d⟩ = .instr .finish) ∧
  ∀ s : State, Inv s →
    (s.evalState ≠ .active → exec .finish s = .next (raise .sequence s)) ∧
    (s.evalState = .active → s.k.toNat + 1 ≠ s.m.toNat → exec .finish s = .next (raise .sequence s)) ∧
    (s.evalState = .active → s.k.toNat + 1 = s.m.toNat → exec .finish s = .next
      { s with
        acc := s.acc ^^^ gmul (BitVec.ofNat 64 (8 * s.lenA.toNat) ++ BitVec.ofNat 64 (8 * (s.lenC.toNat - 16)))
          (tableRead s.pt 1)
        k := s.m, evalState := .done, rspPort := some ⟨.ok, 0#128⟩ })

/-- R84: RD_ACC answers ACC in DONE and changes nothing; outside DONE it is ERR_SEQUENCE. -/
def Obligations.RdAccReturnsThePartialGhash : Prop :=
  (∀ d : Word128, decode ⟨0x23000000#32, d⟩ = .instr .rdAcc) ∧
  ∀ s : State,
    (s.evalState ≠ .done → exec .rdAcc s = .next (raise .sequence s)) ∧
    (s.evalState = .done → exec .rdAcc s = .next { s with rspPort := some ⟨.ok, s.acc⟩ })

/-- R79: after START, one ABSORB per data block and FINISH, ACC is the sum of the products of the blocks with the shares
of H^m down to H^1, in whichever order they are added. -/
def Obligations.PartialGhashIsTheDirectSum : Prop :=
  ∀ (s : State) (a c : Word64) (ws : List Word128), Ready a c ws s →
    ∃ t, execAll (ghashSeq a c ws) s = .next t ∧ t.evalState = .done ∧
      t.acc = directSum (tableRead s.pt) (blocksOf a c ws) ∧
      ∀ l, l.Perm (products (tableRead s.pt) (blocksOf a c ws)) → t.acc = xorAll l

/-- R80: with the true powers in the table, ACC after FINISH is GHASH_H of the blocks; and with tables that are shares
of the powers, the xor of the two parties' ACC is. -/
def Obligations.PartialGhashesSumToGhash : Prop :=
  (∀ (s : State) (a c : Word64) (ws : List Word128) (h : Word128), Ready a c ws s →
    (∀ i, 1 ≤ i → i ≤ blockCount a c → tableRead s.pt i = hPower h i) →
      ∃ t, execAll (ghashSeq a c ws) s = .next t ∧ t.acc = ghashFrom h 0#128 (blocksOf a c ws)) ∧
  (∀ (p q : State) (a c : Word64) (ws : List Word128) (h : Word128), Ready a c ws p → Ready a c ws q →
    (∀ i, 1 ≤ i → i ≤ blockCount a c → tableRead p.pt i ^^^ tableRead q.pt i = hPower h i) →
      ∃ t u, execAll (ghashSeq a c ws) p = .next t ∧ execAll (ghashSeq a c ws) q = .next u ∧
        t.acc ^^^ u.acc = ghashFrom h 0#128 (blocksOf a c ws))

/-! ### Verification -/

/-- R85 and R86: VERIFY in DONE with all three operands loaded answers PASS or FAIL as ACC xor IVS xor TAGS equals TAG or
not, records it, and changes nothing else; a missing operand is ERR_NOT_LOADED, and outside DONE it is ERR_SEQUENCE. -/
def Obligations.VerifyComparesTheReconstructedTag : Prop :=
  (∀ d : Word128, decode ⟨0x30000000#32, d⟩ = .instr .verify) ∧
  ∀ s : State,
    (s.evalState ≠ .done → exec .verify s = .next (raise .sequence s)) ∧
    (s.evalState = .done → (s.ivsV = false ∨ s.tagsV = false ∨ s.tagV = false) →
      exec .verify s = .next (raise .notLoaded s)) ∧
    (s.evalState = .done → s.ivsV = true → s.tagsV = true → s.tagV = true →
      (s.acc ^^^ s.ivs ^^^ s.tags = s.tag →
        exec .verify s = .next { s with verdict := true, vv := true, rspPort := some ⟨.pass, 0#128⟩ }) ∧
      (s.acc ^^^ s.ivs ^^^ s.tags ≠ s.tag →
        exec .verify s = .next { s with verdict := false, vv := true, rspPort := some ⟨.fail, 0#128⟩ }))

/-- R87: with tables that are shares of the powers of H, IV shares that sum to E_K(Y_0), and the peer's tag share formed
from its PartialGHASH and its IV share, the reconstructed value is T = GHASH_H(b_1 … b_m) xor E_K(Y_0), and the
verification answers PASS for the tag T and FAIL for every other. -/
def Obligations.HonestSharesPass : Prop :=
  ∀ (p q u : State) (a c : Word64) (ws : List Word128) (h ek : Word128),
    Ready a c ws p → Loaded p → Ready a c ws q →
    (∀ i, 1 ≤ i → i ≤ blockCount a c → tableRead p.pt i ^^^ tableRead q.pt i = hPower h i) →
    p.ivs ^^^ q.ivs = ek →
    execAll (ghashSeq a c ws) q = .next u → p.tags = u.acc ^^^ q.ivs →
      ∃ t, execAll (verification a c ws) p = .next t ∧ recon t = ghashFrom h 0#128 (blocksOf a c ws) ^^^ ek ∧
        (p.tag = ghashFrom h 0#128 (blocksOf a c ws) ^^^ ek → t.rspPort = some ⟨.pass, 0#128⟩) ∧
        (p.tag ≠ ghashFrom h 0#128 (blocksOf a c ws) ^^^ ek → t.rspPort = some ⟨.fail, 0#128⟩)

/-- A flip of one bit of IVS, TAGS or TAG turns a PASS into a FAIL (R88). -/
def Obligations.AFlippedOperandBitFails : Prop :=
  ∀ (s t : State) (b : Nat), b < 128 → exec .verify s = .next t → t.rspPort = some ⟨.pass, 0#128⟩ →
    (∃ u, exec .verify { s with ivs := s.ivs ^^^ oneBit b } = .next u ∧ u.rspPort = some ⟨.fail, 0#128⟩) ∧
    (∃ u, exec .verify { s with tags := s.tags ^^^ oneBit b } = .next u ∧ u.rspPort = some ⟨.fail, 0#128⟩) ∧
    (∃ u, exec .verify { s with tag := s.tag ^^^ oneBit b } = .next u ∧ u.rspPort = some ⟨.fail, 0#128⟩)

/-- A flip of one bit of the word sent for block k: in a pad byte it changes nothing; elsewhere a verification that
passed fails exactly when the share PT[m-k+1] is not zero (R88). -/
def Obligations.AFlippedBlockBitFailsUnlessItsShareIsZero : Prop :=
  ∀ (s t : State) (a c : Word64) (before after : List Word128) (w : Word128) (b : Nat),
    Ready a c (before ++ w :: after) s → Loaded s → b < 128 →
    execAll (verification a c (before ++ w :: after)) s = .next t → t.rspPort = some ⟨.pass, 0#128⟩ →
      let k := before.length + 1
      let padBit := b < 128 - 8 * nbytes a c (blockCount a c) k
      ∃ u, execAll (verification a c (before ++ (w ^^^ oneBit b) :: after)) s = .next u ∧
        (padBit ∨ tableRead s.pt (blockCount a c - k + 1) = 0#128 → u.rspPort = some ⟨.pass, 0#128⟩) ∧
        (¬padBit ∧ tableRead s.pt (blockCount a c - k + 1) ≠ 0#128 → u.rspPort = some ⟨.fail, 0#128⟩)

/-- A flip of one bit of PT[j] makes a verification that passed fail exactly when the block b_(m-j+1) is not zero
(R88). -/
def Obligations.AFlippedShareBitFailsUnlessItsBlockIsZero : Prop :=
  ∀ (s t : State) (a c : Word64) (ws : List Word128) (j b : Nat),
    Ready a c ws s → Loaded s → b < 128 → 1 ≤ j → j ≤ blockCount a c →
    execAll (verification a c ws) s = .next t → t.rspPort = some ⟨.pass, 0#128⟩ →
      ∃ u, execAll (verification a c ws) { s with pt := tableWrite s.pt j (tableRead s.pt j ^^^ oneBit b) } = .next u ∧
        ((blocksOf a c ws)[blockCount a c - j]? = some 0#128 → u.rspPort = some ⟨.pass, 0#128⟩) ∧
        ((blocksOf a c ws)[blockCount a c - j]? ≠ some 0#128 → u.rspPort = some ⟨.fail, 0#128⟩)

/-! ### What is never observed -/

/-- No command returns or computes with a register that has not been written: two states that differ only in unwritten
contents answer every command alike, and differ only in unwritten contents after it (R33). -/
def Obligations.UnwrittenContentsAreNeverObserved : Prop :=
  ∀ (i : Instr) (s t : State), Inv s → Inv t → SameWritten s t →
    ∃ s' t', exec i s = .next s' ∧ exec i t = .next t' ∧ s'.rspPort = t'.rspPort ∧ SameWritten s' t'

/-- The shares, the tag and the running sum stay inside: no command but RD_ACC and VERIFY answers anything that depends
on them (R20, R92). -/
def Obligations.SharesAndTagStayInside : Prop :=
  ∀ (i : Instr) (s t : State), Inv s → SamePublic s t → i ≠ .rdAcc → i ≠ .verify →
    ∃ s' t', exec i s = .next s' ∧ exec i t = .next t' ∧ s'.rspPort = t'.rspPort ∧ SamePublic s' t'

/-- LOAD_PT v1, ..., vn in a state that accepts writes puts every value at its index, as CFG.NORM says, and leaves the
entries 1..n valid (R62, R67). -/
def Obligations.LoadPtFillsTheTable : Prop :=
  ∀ (s : State) (vs : List Word128), Inv s → s.evalState ≠ .active → vs.length ≤ s.depth →
    ∃ t, execAll (loadPtSeq vs) s = .next t ∧ vs.length ≤ ptN t ∧
      ∀ i v, vs[i]? = some v → tableRead t.pt (i + 1) = if s.norm then normWord v else v

/-- A whole evaluation takes LAT(START) + (m - 1) LAT(ABSORB) + LAT(FINISH) cycles, whatever its data (R8, R117). -/
def Obligations.EvaluationCycles : Prop :=
  ∀ (a c : Word64) (ws : List Word128), ws.length + 1 = blockCount a c →
    cyclesOf (ghashSeq a c ws) =
      Config.lat 0x20#8 + (blockCount a c - 1) * Config.lat 0x21#8 + Config.lat 0x22#8 ∧ ∀ op, 1 ≤ Config.lat op
end

