-- ==== Sys2Proof/Laws/Decode.lean ====
section
/-! SUPPORT. The fields of a command word and of a data operand, read back from the words they are written into. -/

namespace Sys2Proof

/-- The more significant part of a concatenation. -/
theorem append_high {n m : Nat} (a : BitVec n) (b : BitVec m) : (a ++ b).extractLsb' m n = a := by
  apply BitVec.eq_of_getLsbD_eq
  intro i hi
  simp [BitVec.getLsbD_append, hi]

/-- The less significant part of a concatenation. -/
theorem append_low {n m : Nat} (a : BitVec n) (b : BitVec m) : (a ++ b).extractLsb' 0 m = b := by
  apply BitVec.eq_of_getLsbD_eq
  intro i hi
  simp [BitVec.getLsbD_append, hi]

@[simp] theorem aadField_append (a c : Word64) : aadField (a ++ c) = a := append_high a c

@[simp] theorem ctField_append (a c : Word64) : ctField (a ++ c) = c := append_low a c

/-- Format X: the index field holds the index. -/
theorem idxField_formatX (op : BitVec 8) (idx : Nat) (h : idx < 2 ^ 16) : idxField (formatX op idx) = idx := by
  rw [idxField, formatX, append_low, BitVec.toNat_ofNat, Nat.mod_eq_of_lt h]

/-- The mask of format X keeps bits 31:16. -/
theorem formatX_masked (op : BitVec 8) (idx : Nat) : formatX op idx &&& 0xFFFF0000#32 = (op ++ 0#8) ++ 0#16 := by
  rw [show (0xFFFF0000#32) = (BitVec.allOnes 16 ++ 0#16) by decide, formatX, BitVec.and_append,
    BitVec.and_allOnes, BitVec.and_zero]

end Sys2Proof
end

