-- ==== Sys2Proof/Laws/Operands.lean ====
section
/-! SUPPORT. What each operand function answers, bit by bit, and the linearity of the multiplication loop. -/

namespace Sys2Proof.Machine

/-- What a write stores depends on CFG.NORM and the operand alone (R66). -/
theorem shareIn_congr {s t : State} (h : s.norm = t.norm) (v : Word128) : shareIn s v = shareIn t v := by
  rw [shareIn, shareIn, h]

theorem natOfBits_lt (f : Nat → Bool) (n : Nat) : natOfBits f n < 2 ^ n := by
  induction n with
  | zero => simp [natOfBits]
  | succ n ih =>
    simp only [natOfBits, Nat.pow_succ]
    split <;> omega

theorem testBit_natOfBits (f : Nat → Bool) (n i : Nat) (h : i < n) : (natOfBits f n).testBit i = f i := by
  induction n with
  | zero => omega
  | succ n ih =>
    have hl := natOfBits_lt f n
    simp only [natOfBits]
    rcases Nat.lt_succ_iff_lt_or_eq.1 h with h | rfl
    · split
      · rw [Nat.add_comm, Nat.testBit_two_pow_add_gt h, ih h]
      · simpa using ih h
    · split
      · next hf => rw [Nat.add_comm, Nat.testBit_two_pow_add_eq, Nat.testBit_lt_two_pow hl]; simp [hf]
      · next hf => simpa [Nat.testBit_lt_two_pow hl] using hf

/-- The word built from a bit function has those bits. -/
theorem wordOfBits_bit (f : Nat → Bool) (i : Nat) (h : i < 128) : (wordOfBits f).getLsbD i = f i := by
  simp only [wordOfBits, BitVec.getLsbD_ofNat, h, decide_true, Bool.true_and]
  exact testBit_natOfBits f 128 i h

theorem byteSwap_bit (x : Word128) (i : Nat) (h : i < 128) :
    (byteSwap x).getLsbD i = x.getLsbD (8 * (15 - i / 8) + i % 8) := wordOfBits_bit _ i h

theorem bitReverse_bit (y : Word128) (i : Nat) (h : i < 128) : (bitReverse y).getLsbD i = y.getLsbD (127 - i) :=
  wordOfBits_bit _ i h

/-- Bit i of byte j, counted from its least significant bit. -/
theorem byteOf_bit (w : Word128) (j i : Nat) (hi : i < 8) :
    (byteOf w j).getLsbD i = w.getLsbD (120 - 8 * j + i) := by
  simp [byteOf, hi]

/-- A bit of the mask: it belongs to one of the first n bytes. -/
theorem maskw_bit (n i : Nat) (h : i < 128) : (maskw n).getLsbD i = decide (128 - 8 * n ≤ i) := by
  simp only [maskw, BitVec.getLsbD_shiftLeft, BitVec.getLsbD_allOnes, h, decide_true, Bool.true_and]
  by_cases hi : i < 128 - 8 * n
  · simp only [hi, decide_true, Bool.not_true, Bool.false_and]
    exact (decide_eq_false (by omega)).symm
  · simp only [hi, decide_false, Bool.not_false, Bool.true_and]
    rw [decide_eq_true (show i - (128 - 8 * n) < 128 by omega), decide_eq_true (by omega)]

/-- nbytes never exceeds a whole block. -/
theorem nbytes_le (a c : Word64) (m k : Nat) : nbytes a c m k ≤ 16 := by
  unfold nbytes
  dsimp only
  split_ifs <;> omega

/-- nbytes is never 0. -/
theorem nbytes_pos (a c : Word64) (m k : Nat) : 1 ≤ nbytes a c m k := by
  unfold nbytes
  dsimp only
  split_ifs with h1 h2 <;> simp_all <;> omega

/-- Where C ≥ 16, the body's length is C - 16 (R74). -/
theorem bodyLen_toNat (c : Word64) (h : 16 ≤ c.toNat) : (bodyLen c).toNat = c.toNat - 16 := by
  have := c.isLt
  simp only [bodyLen, BitVec.toNat_sub, BitVec.toNat_ofNat]
  omega

/-- Where C ≥ 16, the block count is R75's formula. -/
theorem blockCount_eq (a c : Word64) (h : 16 ≤ c.toNat) :
    blockCount a c = (a.toNat + 15) / 16 + (c.toNat - 16 + 15) / 16 + 1 := by
  simp [blockCount, ceil16, bodyLen_toNat c h]

theorem blockCount_pos (a c : Word64) : 1 ≤ blockCount a c := by simp [blockCount]

/-- Where C ≥ 16, nbytes is R82's formula on numbers. -/
theorem nbytes_eq (a c : Word64) (m k : Nat) (h : 16 ≤ c.toNat) :
    nbytes a c m k =
      (let nA := (a.toNat + 15) / 16
       let r := if k ≤ nA then a.toNat % 16 else (c.toNat - 16) % 16
       let last := if k ≤ nA then k = nA else k + 1 = m
       if last ∧ r ≠ 0 then r else 16) := by
  rw [nbytes, bodyLen_toNat c h]
  rfl

/-- Multiplication by X distributes over xor. -/
theorem timesX_xor (u v : Word128) : timesX (u ^^^ v) = timesX u ^^^ timesX v := by
  simp only [timesX, BitVec.getLsbD_xor, BitVec.ushiftRight_xor_distrib]
  cases u.getLsbD 0 <;> cases v.getLsbD 0 <;> simp
  · rw [BitVec.xor_assoc]
  · rw [BitVec.xor_assoc, BitVec.xor_assoc, BitVec.xor_comm reduction]
  · rw [BitVec.xor_assoc, BitVec.xor_comm reduction, BitVec.xor_assoc, BitVec.xor_self, BitVec.xor_zero]

@[simp] theorem timesX_zero : timesX 0#128 = 0#128 := by decide

/-- The loop adds to what it starts from. -/
theorem gmulLoop_start (x : Word128) (n : Nat) (v z : Word128) :
    gmulLoop x n v z = z ^^^ gmulLoop x n v 0#128 := by
  induction n generalizing v z with
  | zero => simp [gmulLoop]
  | succ n ih =>
    simp only [gmulLoop]
    rw [ih, ih (z := if x.getLsbD n then 0#128 ^^^ v else 0#128)]
    cases x.getLsbD n <;> simp [BitVec.xor_assoc]

/-- One pass of the loop, with its product so far set apart. -/
theorem gmulLoop_succ (x : Word128) (n : Nat) (v : Word128) :
    gmulLoop x (n + 1) v 0#128 = (if x.getLsbD n then v else 0#128) ^^^ gmulLoop x n (timesX v) 0#128 := by
  simp only [gmulLoop]
  rw [gmulLoop_start]
  cases x.getLsbD n <;> simp

end Sys2Proof.Machine
end

