-- ==== Sys2Proof/Laws/State.lean ====
section
/-! SUPPORT. One lemma per field per update of the state, so that no proof unfolds a record update. -/

namespace Sys2Proof.Machine

/-! ### respond -/

@[simp] theorem respond_evalState (c : RspCode) (d : Word128) (s : State) : (respond c d s).evalState = s.evalState := rfl
@[simp] theorem respond_norm (c : RspCode) (d : Word128) (s : State) : (respond c d s).norm = s.norm := rfl
@[simp] theorem respond_pt (c : RspCode) (d : Word128) (s : State) : (respond c d s).pt = s.pt := rfl
@[simp] theorem respond_ptv (c : RspCode) (d : Word128) (s : State) : (respond c d s).ptv = s.ptv := rfl
@[simp] theorem respond_ivs (c : RspCode) (d : Word128) (s : State) : (respond c d s).ivs = s.ivs := rfl
@[simp] theorem respond_ivsV (c : RspCode) (d : Word128) (s : State) : (respond c d s).ivsV = s.ivsV := rfl
@[simp] theorem respond_tags (c : RspCode) (d : Word128) (s : State) : (respond c d s).tags = s.tags := rfl
@[simp] theorem respond_tagsV (c : RspCode) (d : Word128) (s : State) : (respond c d s).tagsV = s.tagsV := rfl
@[simp] theorem respond_tag (c : RspCode) (d : Word128) (s : State) : (respond c d s).tag = s.tag := rfl
@[simp] theorem respond_tagV (c : RspCode) (d : Word128) (s : State) : (respond c d s).tagV = s.tagV := rfl
@[simp] theorem respond_acc (c : RspCode) (d : Word128) (s : State) : (respond c d s).acc = s.acc := rfl
@[simp] theorem respond_lenA (c : RspCode) (d : Word128) (s : State) : (respond c d s).lenA = s.lenA := rfl
@[simp] theorem respond_lenC (c : RspCode) (d : Word128) (s : State) : (respond c d s).lenC = s.lenC := rfl
@[simp] theorem respond_m (c : RspCode) (d : Word128) (s : State) : (respond c d s).m = s.m := rfl
@[simp] theorem respond_k (c : RspCode) (d : Word128) (s : State) : (respond c d s).k = s.k := rfl
@[simp] theorem respond_verdict (c : RspCode) (d : Word128) (s : State) : (respond c d s).verdict = s.verdict := rfl
@[simp] theorem respond_vv (c : RspCode) (d : Word128) (s : State) : (respond c d s).vv = s.vv := rfl
@[simp] theorem respond_errcode (c : RspCode) (d : Word128) (s : State) : (respond c d s).errcode = s.errcode := rfl
@[simp] theorem respond_depth (c : RspCode) (d : Word128) (s : State) : (respond c d s).depth = s.depth := rfl
@[simp] theorem respond_cmdPort (c : RspCode) (d : Word128) (s : State) : (respond c d s).cmdPort = s.cmdPort := rfl
@[simp] theorem respond_rspPort (c : RspCode) (d : Word128) (s : State) : (respond c d s).rspPort = some ⟨c, d⟩ := rfl
@[simp] theorem respond_host (c : RspCode) (d : Word128) (s : State) : (respond c d s).host = s.host := rfl

/-! ### raise -/

@[simp] theorem raise_evalState (e : ErrCode) (s : State) : (raise e s).evalState = .idle := rfl
@[simp] theorem raise_norm (e : ErrCode) (s : State) : (raise e s).norm = s.norm := rfl
@[simp] theorem raise_pt (e : ErrCode) (s : State) : (raise e s).pt = s.pt := rfl
@[simp] theorem raise_ptv (e : ErrCode) (s : State) : (raise e s).ptv = s.ptv := rfl
@[simp] theorem raise_ivs (e : ErrCode) (s : State) : (raise e s).ivs = s.ivs := rfl
@[simp] theorem raise_ivsV (e : ErrCode) (s : State) : (raise e s).ivsV = s.ivsV := rfl
@[simp] theorem raise_tags (e : ErrCode) (s : State) : (raise e s).tags = s.tags := rfl
@[simp] theorem raise_tagsV (e : ErrCode) (s : State) : (raise e s).tagsV = s.tagsV := rfl
@[simp] theorem raise_tag (e : ErrCode) (s : State) : (raise e s).tag = s.tag := rfl
@[simp] theorem raise_tagV (e : ErrCode) (s : State) : (raise e s).tagV = s.tagV := rfl
@[simp] theorem raise_acc (e : ErrCode) (s : State) : (raise e s).acc = 0#128 := rfl
@[simp] theorem raise_lenA (e : ErrCode) (s : State) : (raise e s).lenA = 0#64 := rfl
@[simp] theorem raise_lenC (e : ErrCode) (s : State) : (raise e s).lenC = 0#64 := rfl
@[simp] theorem raise_m (e : ErrCode) (s : State) : (raise e s).m = 0#16 := rfl
@[simp] theorem raise_k (e : ErrCode) (s : State) : (raise e s).k = 0#16 := rfl
@[simp] theorem raise_verdict (e : ErrCode) (s : State) : (raise e s).verdict = false := rfl
@[simp] theorem raise_vv (e : ErrCode) (s : State) : (raise e s).vv = false := rfl
@[simp] theorem raise_errcode (e : ErrCode) (s : State) : (raise e s).errcode = errByte e := rfl
@[simp] theorem raise_depth (e : ErrCode) (s : State) : (raise e s).depth = s.depth := rfl
@[simp] theorem raise_cmdPort (e : ErrCode) (s : State) : (raise e s).cmdPort = s.cmdPort := rfl
@[simp] theorem raise_rspPort (e : ErrCode) (s : State) : (raise e s).rspPort = some ⟨.err e, 0#128⟩ := rfl
@[simp] theorem raise_host (e : ErrCode) (s : State) : (raise e s).host = s.host := rfl

/-! ### dropVerdict -/

@[simp] theorem dropVerdict_evalState (s : State) : (dropVerdict s).evalState = s.evalState := rfl
@[simp] theorem dropVerdict_norm (s : State) : (dropVerdict s).norm = s.norm := rfl
@[simp] theorem dropVerdict_pt (s : State) : (dropVerdict s).pt = s.pt := rfl
@[simp] theorem dropVerdict_ptv (s : State) : (dropVerdict s).ptv = s.ptv := rfl
@[simp] theorem dropVerdict_ivs (s : State) : (dropVerdict s).ivs = s.ivs := rfl
@[simp] theorem dropVerdict_ivsV (s : State) : (dropVerdict s).ivsV = s.ivsV := rfl
@[simp] theorem dropVerdict_tags (s : State) : (dropVerdict s).tags = s.tags := rfl
@[simp] theorem dropVerdict_tagsV (s : State) : (dropVerdict s).tagsV = s.tagsV := rfl
@[simp] theorem dropVerdict_tag (s : State) : (dropVerdict s).tag = s.tag := rfl
@[simp] theorem dropVerdict_tagV (s : State) : (dropVerdict s).tagV = s.tagV := rfl
@[simp] theorem dropVerdict_acc (s : State) : (dropVerdict s).acc = s.acc := rfl
@[simp] theorem dropVerdict_lenA (s : State) : (dropVerdict s).lenA = s.lenA := rfl
@[simp] theorem dropVerdict_lenC (s : State) : (dropVerdict s).lenC = s.lenC := rfl
@[simp] theorem dropVerdict_m (s : State) : (dropVerdict s).m = s.m := rfl
@[simp] theorem dropVerdict_k (s : State) : (dropVerdict s).k = s.k := rfl
@[simp] theorem dropVerdict_verdict (s : State) : (dropVerdict s).verdict = false := rfl
@[simp] theorem dropVerdict_vv (s : State) : (dropVerdict s).vv = false := rfl
@[simp] theorem dropVerdict_errcode (s : State) : (dropVerdict s).errcode = s.errcode := rfl
@[simp] theorem dropVerdict_depth (s : State) : (dropVerdict s).depth = s.depth := rfl
@[simp] theorem dropVerdict_cmdPort (s : State) : (dropVerdict s).cmdPort = s.cmdPort := rfl
@[simp] theorem dropVerdict_rspPort (s : State) : (dropVerdict s).rspPort = s.rspPort := rfl
@[simp] theorem dropVerdict_host (s : State) : (dropVerdict s).host = s.host := rfl

/-! ### writePt -/

@[simp] theorem writePt_evalState (i : Nat) (v : Word128) (s : State) : (writePt i v s).evalState = s.evalState := rfl
@[simp] theorem writePt_norm (i : Nat) (v : Word128) (s : State) : (writePt i v s).norm = s.norm := rfl
@[simp] theorem writePt_pt (i : Nat) (v : Word128) (s : State) : (writePt i v s).pt = tableWrite s.pt i v := rfl
@[simp] theorem writePt_ptv (i : Nat) (v : Word128) (s : State) : (writePt i v s).ptv = insertIndex s.ptv i := rfl
@[simp] theorem writePt_ivs (i : Nat) (v : Word128) (s : State) : (writePt i v s).ivs = s.ivs := rfl
@[simp] theorem writePt_ivsV (i : Nat) (v : Word128) (s : State) : (writePt i v s).ivsV = s.ivsV := rfl
@[simp] theorem writePt_tags (i : Nat) (v : Word128) (s : State) : (writePt i v s).tags = s.tags := rfl
@[simp] theorem writePt_tagsV (i : Nat) (v : Word128) (s : State) : (writePt i v s).tagsV = s.tagsV := rfl
@[simp] theorem writePt_tag (i : Nat) (v : Word128) (s : State) : (writePt i v s).tag = s.tag := rfl
@[simp] theorem writePt_tagV (i : Nat) (v : Word128) (s : State) : (writePt i v s).tagV = s.tagV := rfl
@[simp] theorem writePt_acc (i : Nat) (v : Word128) (s : State) : (writePt i v s).acc = s.acc := rfl
@[simp] theorem writePt_lenA (i : Nat) (v : Word128) (s : State) : (writePt i v s).lenA = s.lenA := rfl
@[simp] theorem writePt_lenC (i : Nat) (v : Word128) (s : State) : (writePt i v s).lenC = s.lenC := rfl
@[simp] theorem writePt_m (i : Nat) (v : Word128) (s : State) : (writePt i v s).m = s.m := rfl
@[simp] theorem writePt_k (i : Nat) (v : Word128) (s : State) : (writePt i v s).k = s.k := rfl
@[simp] theorem writePt_verdict (i : Nat) (v : Word128) (s : State) : (writePt i v s).verdict = s.verdict := rfl
@[simp] theorem writePt_vv (i : Nat) (v : Word128) (s : State) : (writePt i v s).vv = s.vv := rfl
@[simp] theorem writePt_errcode (i : Nat) (v : Word128) (s : State) : (writePt i v s).errcode = s.errcode := rfl
@[simp] theorem writePt_depth (i : Nat) (v : Word128) (s : State) : (writePt i v s).depth = s.depth := rfl
@[simp] theorem writePt_cmdPort (i : Nat) (v : Word128) (s : State) : (writePt i v s).cmdPort = s.cmdPort := rfl
@[simp] theorem writePt_rspPort (i : Nat) (v : Word128) (s : State) : (writePt i v s).rspPort = s.rspPort := rfl
@[simp] theorem writePt_host (i : Nat) (v : Word128) (s : State) : (writePt i v s).host = s.host := rfl

/-! ### clearRegisters -/

@[simp] theorem clearRegisters_evalState (s : State) : (clearRegisters s).evalState = .idle := rfl
@[simp] theorem clearRegisters_norm (s : State) : (clearRegisters s).norm = true := rfl
@[simp] theorem clearRegisters_pt (s : State) : (clearRegisters s).pt = [] := rfl
@[simp] theorem clearRegisters_ptv (s : State) : (clearRegisters s).ptv = [] := rfl
@[simp] theorem clearRegisters_ivs (s : State) : (clearRegisters s).ivs = 0#128 := rfl
@[simp] theorem clearRegisters_ivsV (s : State) : (clearRegisters s).ivsV = false := rfl
@[simp] theorem clearRegisters_tags (s : State) : (clearRegisters s).tags = 0#128 := rfl
@[simp] theorem clearRegisters_tagsV (s : State) : (clearRegisters s).tagsV = false := rfl
@[simp] theorem clearRegisters_tag (s : State) : (clearRegisters s).tag = 0#128 := rfl
@[simp] theorem clearRegisters_tagV (s : State) : (clearRegisters s).tagV = false := rfl
@[simp] theorem clearRegisters_acc (s : State) : (clearRegisters s).acc = 0#128 := rfl
@[simp] theorem clearRegisters_lenA (s : State) : (clearRegisters s).lenA = 0#64 := rfl
@[simp] theorem clearRegisters_lenC (s : State) : (clearRegisters s).lenC = 0#64 := rfl
@[simp] theorem clearRegisters_m (s : State) : (clearRegisters s).m = 0#16 := rfl
@[simp] theorem clearRegisters_k (s : State) : (clearRegisters s).k = 0#16 := rfl
@[simp] theorem clearRegisters_verdict (s : State) : (clearRegisters s).verdict = false := rfl
@[simp] theorem clearRegisters_vv (s : State) : (clearRegisters s).vv = false := rfl
@[simp] theorem clearRegisters_errcode (s : State) : (clearRegisters s).errcode = 0#8 := rfl
@[simp] theorem clearRegisters_depth (s : State) : (clearRegisters s).depth = s.depth := rfl
@[simp] theorem clearRegisters_cmdPort (s : State) : (clearRegisters s).cmdPort = s.cmdPort := rfl
@[simp] theorem clearRegisters_rspPort (s : State) : (clearRegisters s).rspPort = s.rspPort := rfl
@[simp] theorem clearRegisters_host (s : State) : (clearRegisters s).host = s.host := rfl

/-! ### presentNow -/

@[simp] theorem presentNow_evalState (c : Command) (s : State) : (presentNow c s).evalState = s.evalState := rfl
@[simp] theorem presentNow_norm (c : Command) (s : State) : (presentNow c s).norm = s.norm := rfl
@[simp] theorem presentNow_pt (c : Command) (s : State) : (presentNow c s).pt = s.pt := rfl
@[simp] theorem presentNow_ptv (c : Command) (s : State) : (presentNow c s).ptv = s.ptv := rfl
@[simp] theorem presentNow_ivs (c : Command) (s : State) : (presentNow c s).ivs = s.ivs := rfl
@[simp] theorem presentNow_ivsV (c : Command) (s : State) : (presentNow c s).ivsV = s.ivsV := rfl
@[simp] theorem presentNow_tags (c : Command) (s : State) : (presentNow c s).tags = s.tags := rfl
@[simp] theorem presentNow_tagsV (c : Command) (s : State) : (presentNow c s).tagsV = s.tagsV := rfl
@[simp] theorem presentNow_tag (c : Command) (s : State) : (presentNow c s).tag = s.tag := rfl
@[simp] theorem presentNow_tagV (c : Command) (s : State) : (presentNow c s).tagV = s.tagV := rfl
@[simp] theorem presentNow_acc (c : Command) (s : State) : (presentNow c s).acc = s.acc := rfl
@[simp] theorem presentNow_lenA (c : Command) (s : State) : (presentNow c s).lenA = s.lenA := rfl
@[simp] theorem presentNow_lenC (c : Command) (s : State) : (presentNow c s).lenC = s.lenC := rfl
@[simp] theorem presentNow_m (c : Command) (s : State) : (presentNow c s).m = s.m := rfl
@[simp] theorem presentNow_k (c : Command) (s : State) : (presentNow c s).k = s.k := rfl
@[simp] theorem presentNow_verdict (c : Command) (s : State) : (presentNow c s).verdict = s.verdict := rfl
@[simp] theorem presentNow_vv (c : Command) (s : State) : (presentNow c s).vv = s.vv := rfl
@[simp] theorem presentNow_errcode (c : Command) (s : State) : (presentNow c s).errcode = s.errcode := rfl
@[simp] theorem presentNow_depth (c : Command) (s : State) : (presentNow c s).depth = s.depth := rfl
@[simp] theorem presentNow_cmdPort (c : Command) (s : State) : (presentNow c s).cmdPort = some c := rfl
@[simp] theorem presentNow_rspPort (c : Command) (s : State) : (presentNow c s).rspPort = none := rfl
@[simp] theorem presentNow_host (c : Command) (s : State) : (presentNow c s).host = s.host := rfl

/-! ### resetNow -/

@[simp] theorem resetNow_evalState (s : State) : (resetNow s).evalState = .idle := rfl
@[simp] theorem resetNow_norm (s : State) : (resetNow s).norm = true := rfl
@[simp] theorem resetNow_pt (s : State) : (resetNow s).pt = [] := rfl
@[simp] theorem resetNow_ptv (s : State) : (resetNow s).ptv = [] := rfl
@[simp] theorem resetNow_ivs (s : State) : (resetNow s).ivs = 0#128 := rfl
@[simp] theorem resetNow_ivsV (s : State) : (resetNow s).ivsV = false := rfl
@[simp] theorem resetNow_tags (s : State) : (resetNow s).tags = 0#128 := rfl
@[simp] theorem resetNow_tagsV (s : State) : (resetNow s).tagsV = false := rfl
@[simp] theorem resetNow_tag (s : State) : (resetNow s).tag = 0#128 := rfl
@[simp] theorem resetNow_tagV (s : State) : (resetNow s).tagV = false := rfl
@[simp] theorem resetNow_acc (s : State) : (resetNow s).acc = 0#128 := rfl
@[simp] theorem resetNow_lenA (s : State) : (resetNow s).lenA = 0#64 := rfl
@[simp] theorem resetNow_lenC (s : State) : (resetNow s).lenC = 0#64 := rfl
@[simp] theorem resetNow_m (s : State) : (resetNow s).m = 0#16 := rfl
@[simp] theorem resetNow_k (s : State) : (resetNow s).k = 0#16 := rfl
@[simp] theorem resetNow_verdict (s : State) : (resetNow s).verdict = false := rfl
@[simp] theorem resetNow_vv (s : State) : (resetNow s).vv = false := rfl
@[simp] theorem resetNow_errcode (s : State) : (resetNow s).errcode = 0#8 := rfl
@[simp] theorem resetNow_depth (s : State) : (resetNow s).depth = s.depth := rfl
@[simp] theorem resetNow_cmdPort (s : State) : (resetNow s).cmdPort = s.cmdPort := rfl
@[simp] theorem resetNow_rspPort (s : State) : (resetNow s).rspPort = none := rfl
@[simp] theorem resetNow_host (s : State) : (resetNow s).host = s.host := rfl

end Sys2Proof.Machine
end

