-- ==== Sys2Proof/Laws/Table.lean ====
section
/-! SUPPORT. The power-share table: read after write, writes elsewhere, and the canonical form every operation keeps. -/

namespace Sys2Proof.Machine

/-- An index below every listed one holds 0^128. -/
theorem tableRead_below (t : Table) (i : Nat) (h : ∀ e ∈ t, i < e.1) : tableRead t i = 0#128 := by
  induction t with
  | nil => rfl
  | cons e t ih =>
    have hi := h e (by simp)
    simp only [tableRead, Nat.ne_of_gt hi, if_false]
    exact ih (fun x hx => h x (by simp [hx]))

theorem tableRead_tableWrite_same (t : Table) (i : Nat) (v : Word128) (h : Table.wf t) :
    tableRead (tableWrite t i v) i = v := by
  obtain ⟨hp, -⟩ := h
  induction t with
  | nil => by_cases hv : v = 0#128 <;> simp [tableWrite, tableRead, hv]
  | cons e t ih =>
    obtain ⟨j, w⟩ := e
    rw [List.pairwise_cons] at hp
    by_cases h1 : j < i
    · simp only [tableWrite, h1, if_true, tableRead, Nat.ne_of_lt h1, if_false]
      exact ih hp.2
    · by_cases h2 : j = i
      · by_cases hv : v = 0#128
        · subst h2
          simp only [tableWrite, lt_irrefl, if_false, if_true, hv]
          exact tableRead_below t j hp.1
        · simp [tableWrite, tableRead, h2, hv]
      · have h3 : i < j := by omega
        by_cases hv : v = 0#128
        · simp only [tableWrite, h1, h2, hv, if_false, if_true, tableRead]
          exact tableRead_below t i (fun x hx => by have := hp.1 x hx; simp only at this; omega)
        · simp [tableWrite, tableRead, h1, h2, hv]

theorem tableRead_tableWrite_other (t : Table) (i j : Nat) (v : Word128) (h : i ≠ j) :
    tableRead (tableWrite t i v) j = tableRead t j := by
  induction t with
  | nil => by_cases hv : v = 0#128 <;> simp [tableWrite, tableRead, hv, h]
  | cons e t ih =>
    obtain ⟨l, w⟩ := e
    by_cases h1 : l < i
    · simp only [tableWrite, h1, if_true, tableRead, ih]
    · by_cases h2 : l = i
      · subst h2
        by_cases hv : v = 0#128 <;> simp [tableWrite, tableRead, hv, h]
      · by_cases hv : v = 0#128 <;> simp [tableWrite, tableRead, h1, h2, hv, h]

/-- What a write lists: what was listed, or the written pair. -/
theorem mem_tableWrite (t : Table) (i : Nat) (v : Word128) (e : Nat × Word128) (h : e ∈ tableWrite t i v) :
    e ∈ t ∨ (e = (i, v) ∧ v ≠ 0#128) := by
  induction t with
  | nil =>
    by_cases hv : v = 0#128
    · simp [tableWrite, hv] at h
    · exact .inr ⟨by simpa [tableWrite, hv] using h, hv⟩
  | cons x t ih =>
    obtain ⟨j, w⟩ := x
    unfold tableWrite at h
    split_ifs at h with h1 h2 hv hv
    · rcases List.mem_cons.1 h with rfl | h
      · exact .inl (by simp)
      · exact (ih h).imp_left (List.mem_cons_of_mem _)
    · exact .inl (List.mem_cons_of_mem _ h)
    · rcases List.mem_cons.1 h with rfl | h
      · exact .inr ⟨rfl, hv⟩
      · exact .inl (List.mem_cons_of_mem _ h)
    · exact .inl h
    · rcases List.mem_cons.1 h with rfl | h
      · exact .inr ⟨rfl, hv⟩
      · exact .inl h

/-- A write keeps the canonical form. -/
theorem tableWrite_wf (t : Table) (i : Nat) (v : Word128) (h : Table.wf t) : Table.wf (tableWrite t i v) := by
  refine ⟨?_, fun e he => ?_⟩
  · obtain ⟨hp, -⟩ := h
    induction t with
    | nil => by_cases hv : v = 0#128 <;> simp [tableWrite, hv]
    | cons x t ih =>
      obtain ⟨j, w⟩ := x
      have hc := List.pairwise_cons.1 hp
      unfold tableWrite
      split_ifs with h1 h2 hv hv
      · refine List.pairwise_cons.2 ⟨fun e he => ?_, ih hc.2⟩
        rcases mem_tableWrite t i v e he with he | ⟨rfl, -⟩
        · exact hc.1 e he
        · exact h1
      · exact hc.2
      · exact List.pairwise_cons.2 ⟨fun e he => by have := hc.1 e he; simp only at this ⊢; omega, hc.2⟩
      · exact hp
      · refine List.pairwise_cons.2 ⟨fun e he => ?_, hp⟩
        rcases List.mem_cons.1 he with rfl | he
        · simp only; omega
        · have := hc.1 e he; simp only at this ⊢; omega
  · rcases mem_tableWrite t i v e he with he | ⟨rfl, hv⟩
    · exact h.2 e he
    · exact hv

/-- Writing an index twice is writing it once. -/
theorem tableWrite_tableWrite (t : Table) (i : Nat) (v : Word128) (h : Table.wf t) :
    tableWrite (tableWrite t i v) i v = tableWrite t i v := by
  obtain ⟨hp, -⟩ := h
  induction t with
  | nil => by_cases hv : v = 0#128 <;> simp [tableWrite, hv]
  | cons x t ih =>
    obtain ⟨j, w⟩ := x
    have hc := List.pairwise_cons.1 hp
    by_cases h1 : j < i
    · simp only [tableWrite, h1, if_true, ih hc.2]
    · by_cases h2 : j = i
      · by_cases hv : v = 0#128
        · subst h2
          simp only [tableWrite, lt_irrefl, if_false, if_true, hv]
          cases t with
          | nil => simp [tableWrite]
          | cons y t =>
            have := hc.1 y (by simp)
            simp only at this
            simp [tableWrite, Nat.not_lt.2 this.le, Nat.ne_of_gt this]
        · simp [tableWrite, h2, hv]
      · by_cases hv : v = 0#128 <;> simp [tableWrite, h1, h2, hv]

@[simp] theorem mem_insertIndex (l : List Nat) (i j : Nat) : j ∈ insertIndex l i ↔ j = i ∨ j ∈ l := by
  induction l with
  | nil => simp [insertIndex]
  | cons x l ih =>
    unfold insertIndex
    split_ifs with h1 h2
    · simp only [List.mem_cons, ih]; tauto
    · subst h2; simp
    · simp

/-- Inserting keeps the indices strictly rising. -/
theorem insertIndex_rising (l : List Nat) (i : Nat) (h : l.Pairwise (· < ·)) :
    (insertIndex l i).Pairwise (· < ·) := by
  induction l with
  | nil => simp [insertIndex]
  | cons x l ih =>
    have hc := List.pairwise_cons.1 h
    unfold insertIndex
    split_ifs with h1 h2
    · refine List.pairwise_cons.2 ⟨fun y hy => ?_, ih hc.2⟩
      rcases (mem_insertIndex l i y).1 hy with rfl | hy
      · exact h1
      · exact hc.1 y hy
    · exact h
    · refine List.pairwise_cons.2 ⟨fun y hy => ?_, h⟩
      rcases List.mem_cons.1 hy with rfl | hy
      · omega
      · have := hc.1 y hy; omega

/-- Inserting an index that is there changes nothing. -/
theorem insertIndex_insertIndex (l : List Nat) (i : Nat) : insertIndex (insertIndex l i) i = insertIndex l i := by
  induction l with
  | nil => simp [insertIndex]
  | cons x l ih =>
    by_cases h1 : x < i
    · simp [insertIndex, h1, ih]
    · by_cases h2 : x = i <;> simp [insertIndex, h1, h2]

/-- The empty table has the canonical form. -/
theorem tableWf_nil : Table.wf [] := ⟨List.Pairwise.nil, by simp⟩

/-- The reset tables have the canonical form. -/
theorem reset_table_wf (n : Nat) : Table.wf (State.resetWith n).pt := tableWf_nil

theorem entryExists_iff (s : State) (i : Nat) : entryExists s i = true ↔ 1 ≤ i ∧ i ≤ s.depth := by
  simp [entryExists]

theorem ptValid_iff (s : State) (i : Nat) : ptValid s i = true ↔ i ∈ s.ptv := by simp [ptValid]

/-- A read of an entry that exists answers what the table holds there. -/
theorem readPt_some (s : State) (i : Nat) (h1 : 1 ≤ i) (h2 : i ≤ s.depth) : readPt s i = some (tableRead s.pt i) := by
  simp [readPt, entryExists, h1, h2]

/-- A read answers nothing exactly outside 1..PT_DEPTH. -/
theorem readPt_none_iff (s : State) (i : Nat) : readPt s i = none ↔ ¬(1 ≤ i ∧ i ≤ s.depth) := by
  simp [readPt, entryExists]

theorem allValid_iff (s : State) (n : Nat) :
    allValid s n = true ↔ ∀ j, 1 ≤ j → j ≤ n → ptValid s j = true := by
  simp only [allValid, List.all_eq_true, List.mem_range]
  constructor
  · intro h j h1 h2
    have := h (j - 1) (by omega)
    rwa [Nat.sub_add_cancel h1] at this
  · intro h j hj
    exact h (j + 1) (by omega) (by omega)

/-- A written entry is valid, and the validity of the others is unchanged. -/
theorem ptValid_writePt (i j : Nat) (v : Word128) (s : State) :
    ptValid (writePt i v s) j = true ↔ j = i ∨ ptValid s j = true := by
  simp [ptValid]

end Sys2Proof.Machine
end

