-- ==== Sys2Proof/Laws/Meanings.lean ====
section
/-! SUPPORT. Everything a meaning, a host move and a step can do, said once: each lemma lists the outcomes with the
guards under which they happen. -/

namespace Sys2Proof.Machine

theorem execSetCfg_cases (d : Word128) (s : State) :
    (s.evalState = .active ∧ execSetCfg d s = .next (raise .sequence s)) ∨
    (s.evalState ≠ .active ∧ d.extractLsb' 1 127 ≠ 0#127 ∧ execSetCfg d s = .next (raise .illegal s)) ∨
    (s.evalState ≠ .active ∧ d.extractLsb' 1 127 = 0#127 ∧ execSetCfg d s =
      .next (respond .ok 0#128 (dropVerdict { s with norm := d.getLsbD 0, ptv := [], ivsV := false }))) := by
  unfold execSetCfg
  by_cases h : s.evalState = .active
  · simp [h]
  · by_cases hd : d.extractLsb' 1 127 = 0#127 <;> simp [h, hd]

theorem execWrPt_cases (idx : Nat) (v : Word128) (s : State) :
    (s.evalState = .active ∧ execWrPt idx v s = .next (raise .sequence s)) ∨
    (s.evalState ≠ .active ∧ ¬(1 ≤ idx ∧ idx ≤ s.depth) ∧ execWrPt idx v s = .next (raise .index s)) ∨
    (s.evalState ≠ .active ∧ (1 ≤ idx ∧ idx ≤ s.depth) ∧
      execWrPt idx v s = .next (respond .ok 0#128 (writePt idx (shareIn s v) s))) := by
  unfold execWrPt
  by_cases h : s.evalState = .active
  · simp [h]
  · by_cases hd : 1 ≤ idx ∧ idx ≤ s.depth <;> simp [h, entryExists, hd]

theorem execWrIvs_cases (v : Word128) (s : State) :
    (s.evalState = .active ∧ execWrIvs v s = .next (raise .sequence s)) ∨
    (s.evalState ≠ .active ∧ execWrIvs v s =
      .next (respond .ok 0#128 (dropVerdict { s with ivs := shareIn s v, ivsV := true }))) := by
  unfold execWrIvs
  by_cases h : s.evalState = .active <;> simp [h]

theorem execWrTags_cases (v : Word128) (s : State) :
    (s.evalState = .active ∧ execWrTags v s = .next (raise .sequence s)) ∨
    (s.evalState ≠ .active ∧ execWrTags v s =
      .next (respond .ok 0#128 (dropVerdict { s with tags := v, tagsV := true }))) := by
  unfold execWrTags
  by_cases h : s.evalState = .active <;> simp [h]

theorem execWrTag_cases (v : Word128) (s : State) :
    (s.evalState = .active ∧ execWrTag v s = .next (raise .sequence s)) ∨
    (s.evalState ≠ .active ∧ execWrTag v s =
      .next (respond .ok 0#128 (dropVerdict { s with tag := v, tagV := true }))) := by
  unfold execWrTag
  by_cases h : s.evalState = .active <;> simp [h]

theorem execStart_cases (a c : Word64) (s : State) :
    (s.evalState = .active ∧ execStart a c s = .next (raise .sequence s)) ∨
    (s.evalState ≠ .active ∧ c.toNat < 16 ∧ execStart a c s = .next (raise .tooShort s)) ∨
    (s.evalState ≠ .active ∧ 16 ≤ c.toNat ∧ (s.depth < blockCount a c ∨ allValid s (blockCount a c) = false) ∧
      execStart a c s = .next (raise .insufficient s)) ∨
    (s.evalState ≠ .active ∧ 16 ≤ c.toNat ∧ blockCount a c ≤ s.depth ∧ allValid s (blockCount a c) = true ∧
      execStart a c s = .next (respond .ok 0#128 (dropVerdict
        { s with
          lenA := a, lenC := c, m := BitVec.ofNat 16 (blockCount a c), k := 0#16
          acc := 0#128, evalState := .active }))) := by
  unfold execStart
  by_cases h : s.evalState = .active
  · simp [h]
  · by_cases hc : c.toNat < 16
    · simp [h, hc]
    · by_cases hd : s.depth < blockCount a c
      · simp [h, hc, hd, Nat.not_lt.1 hc]
      · by_cases hv : allValid s (blockCount a c) = true <;>
          simp [h, hc, hd, Nat.not_lt.1 hc, Nat.not_lt.1 hd, hv]

theorem execAbsorb_cases (w : Word128) (s : State) :
    (s.evalState ≠ .active ∧ execAbsorb w s = .next (raise .sequence s)) ∨
    (s.evalState = .active ∧ s.k.toNat + 1 = s.m.toNat ∧ execAbsorb w s = .next (raise .sequence s)) ∨
    (s.evalState = .active ∧ s.k.toNat + 1 ≠ s.m.toNat ∧
      ¬(1 ≤ s.m.toNat - s.k.toNat ∧ s.m.toNat - s.k.toNat ≤ s.depth) ∧ execAbsorb w s = .fault .noSuchEntry) ∨
    (s.evalState = .active ∧ s.k.toNat + 1 ≠ s.m.toNat ∧
      (1 ≤ s.m.toNat - s.k.toNat ∧ s.m.toNat - s.k.toNat ≤ s.depth) ∧ execAbsorb w s =
        .next (respond .ok 0#128
          { s with
            acc := s.acc ^^^ gmul (maskedBlock s (s.k.toNat + 1) w) (tableRead s.pt (s.m.toNat - s.k.toNat))
            k := BitVec.ofNat 16 (s.k.toNat + 1) })) := by
  unfold execAbsorb
  dsimp only
  rw [show s.m.toNat + 1 - (s.k.toNat + 1) = s.m.toNat - s.k.toNat by omega]
  by_cases h : s.evalState = .active
  · by_cases hk : s.k.toNat + 1 = s.m.toNat
    · simp [h, hk]
    · by_cases hd : 1 ≤ s.m.toNat - s.k.toNat ∧ s.m.toNat - s.k.toNat ≤ s.depth
      · simp only [h, hk, ne_eq, not_true, if_false, readPt_some s _ hd.1 hd.2]
        simp [hd]
      · simp only [h, hk, ne_eq, not_true, if_false, (readPt_none_iff s _).2 hd]
        simp
        omega
  · simp [h]

theorem execFinish_cases (s : State) :
    (s.evalState ≠ .active ∧ execFinish s = .next (raise .sequence s)) ∨
    (s.evalState = .active ∧ s.k.toNat + 1 ≠ s.m.toNat ∧ execFinish s = .next (raise .sequence s)) ∨
    (s.evalState = .active ∧ s.k.toNat + 1 = s.m.toNat ∧ s.depth = 0 ∧ execFinish s = .fault .noSuchEntry) ∨
    (s.evalState = .active ∧ s.k.toNat + 1 = s.m.toNat ∧ 1 ≤ s.depth ∧ execFinish s =
      .next (respond .ok 0#128
        { s with
          acc := s.acc ^^^ gmul (lenblock s.lenA s.lenC) (tableRead s.pt 1), k := s.m, evalState := .done })) := by
  unfold execFinish
  by_cases h : s.evalState = .active
  · by_cases hk : s.k.toNat + 1 = s.m.toNat
    · by_cases hd : 1 ≤ s.depth
      · simp [h, hk, hd, readPt_some s 1 (le_refl 1) hd]
      · have h0 : s.depth = 0 := by omega
        simp [h, hk, h0, (readPt_none_iff s 1).2 (by omega)]
    · simp [h, hk]
  · simp [h]

theorem execRdAcc_cases (s : State) :
    (s.evalState ≠ .done ∧ execRdAcc s = .next (raise .sequence s)) ∨
    (s.evalState = .done ∧ execRdAcc s = .next (respond .ok s.acc s)) := by
  unfold execRdAcc
  by_cases h : s.evalState = .done <;> simp [h]

theorem execVerify_cases (s : State) :
    (s.evalState ≠ .done ∧ execVerify s = .next (raise .sequence s)) ∨
    (s.evalState = .done ∧ ¬(s.ivsV = true ∧ s.tagsV = true ∧ s.tagV = true) ∧
      execVerify s = .next (raise .notLoaded s)) ∨
    (s.evalState = .done ∧ (s.ivsV = true ∧ s.tagsV = true ∧ s.tagV = true) ∧ recon s = s.tag ∧
      execVerify s = .next (respond .pass 0#128 { s with verdict := true, vv := true })) ∨
    (s.evalState = .done ∧ (s.ivsV = true ∧ s.tagsV = true ∧ s.tagV = true) ∧ recon s ≠ s.tag ∧
      execVerify s = .next (respond .fail 0#128 { s with verdict := false, vv := true })) := by
  unfold execVerify
  by_cases h : s.evalState = .done
  · by_cases hl : s.ivsV = true ∧ s.tagsV = true ∧ s.tagV = true
    · obtain ⟨h1, h2, h3⟩ := hl
      by_cases hr : recon s = s.tag <;> simp [h, h1, h2, h3, hr]
    · cases h1 : s.ivsV <;> cases h2 : s.tagsV <;> cases h3 : s.tagV <;> simp_all
  · simp [h]

theorem hostMove_cases (s : State) :
    (s.host = [] ∧ hostMove s = .next s) ∨
    (∃ c rest, s.host = .present c :: rest ∧ s.cmdPort = none ∧
      hostMove s = .next { s with cmdPort := some c, host := rest }) ∨
    (∃ c d rest, s.host = .present c :: rest ∧ s.cmdPort = some d ∧ hostMove s = .refused .handshakeBroken) ∨
    (∃ rest, s.host = .take :: rest ∧ hostMove s = .next { s with rspPort := none, host := rest }) ∨
    (∃ rest, s.host = .reset :: rest ∧ hostMove s = .next (resetNow { s with host := rest })) := by
  unfold hostMove
  rcases hh : s.host with _ | ⟨_ | _ | _, rest⟩ <;> simp
  cases s.cmdPort <;> simp

/-- A step accepts the presented command, or is the host's move. -/
theorem step_cases (s : State) :
    (∃ c i, s.cmdPort = some c ∧ s.rspPort = none ∧ decode c = .instr i ∧
      step s = exec i { s with cmdPort := none }) ∨
    (∃ c why, s.cmdPort = some c ∧ s.rspPort = none ∧ decode c = .illegal why ∧
      step s = .next (raise .illegal { s with cmdPort := none })) ∨
    ((s.cmdPort = none ∨ s.rspPort ≠ none) ∧ step s = hostMove s) := by
  unfold step
  rcases hc : s.cmdPort with _ | c
  · exact .inr (.inr (by simp))
  · rcases hr : s.rspPort with _ | r
    · rcases hd : decode c with i | why
      · exact .inl ⟨c, i, by simp [hd]⟩
      · exact .inr (.inl ⟨c, why, by simp [hd, takeIllegal]⟩)
    · exact .inr (.inr (by simp))

end Sys2Proof.Machine
end

