-- ==== Sys2Proof/Laws/Effect.lean ====
section
/-! SUPPORT. Every next state of `exec` in one shape: the abort of an error, or one response over the command's own effect.
A fact about all commands then needs one case per command, and no unfolding of a meaning. -/

namespace Sys2Proof.Machine

/-- The registers after a command that succeeds. -/
def effect : Instr → State → State
  | .nop, s => s
  | .clr, s => clearRegisters s
  | .setCfg d, s => dropVerdict { s with norm := d.getLsbD 0, ptv := [], ivsV := false }
  | .rdStatus, s => s
  | .wrPt idx v, s => writePt idx (shareIn s v) s
  | .wrIvs v, s => dropVerdict { s with ivs := shareIn s v, ivsV := true }
  | .wrTags v, s => dropVerdict { s with tags := v, tagsV := true }
  | .wrTag v, s => dropVerdict { s with tag := v, tagV := true }
  | .start a c, s => dropVerdict
      { s with
        lenA := a, lenC := c, m := BitVec.ofNat 16 (blockCount a c), k := 0#16, acc := 0#128, evalState := .active }
  | .absorb w, s =>
      { s with
        acc := s.acc ^^^ gmul (maskedBlock s (s.k.toNat + 1) w) (tableRead s.pt (s.m.toNat - s.k.toNat))
        k := BitVec.ofNat 16 (s.k.toNat + 1) }
  | .finish, s =>
      { s with acc := s.acc ^^^ gmul (lenblock s.lenA s.lenC) (tableRead s.pt 1), k := s.m, evalState := .done }
  | .rdAcc, s => s
  | .verify, s => { s with verdict := decide (recon s = s.tag), vv := true }

/-- The response of a command that succeeds. -/
def reply : Instr → State → Response
  | .rdStatus, s => ⟨.ok, statusView s⟩
  | .rdAcc, s => ⟨.ok, s.acc⟩
  | .verify, s => ⟨if recon s = s.tag then .pass else .fail, 0#128⟩
  | .nop, _ => ⟨.ok, 0#128⟩
  | .clr, _ => ⟨.ok, 0#128⟩
  | .setCfg _, _ => ⟨.ok, 0#128⟩
  | .wrPt _ _, _ => ⟨.ok, 0#128⟩
  | .wrIvs _, _ => ⟨.ok, 0#128⟩
  | .wrTags _, _ => ⟨.ok, 0#128⟩
  | .wrTag _, _ => ⟨.ok, 0#128⟩
  | .start _ _, _ => ⟨.ok, 0#128⟩
  | .absorb _, _ => ⟨.ok, 0#128⟩
  | .finish, _ => ⟨.ok, 0#128⟩

/-- The state a successful command leaves, its response with it. -/
def success (i : Instr) (s : State) : State := respond (reply i s).code (reply i s).data (effect i s)

/-- What a successful command found: the guard of its last branch. -/
def Guard : Instr → State → Prop
  | .nop, _ => True
  | .clr, _ => True
  | .rdStatus, _ => True
  | .setCfg d, s => s.evalState ≠ .active ∧ d.extractLsb' 1 127 = 0#127
  | .wrPt idx _, s => s.evalState ≠ .active ∧ (1 ≤ idx ∧ idx ≤ s.depth)
  | .wrIvs _, s => s.evalState ≠ .active
  | .wrTags _, s => s.evalState ≠ .active
  | .wrTag _, s => s.evalState ≠ .active
  | .start a c, s =>
      s.evalState ≠ .active ∧ 16 ≤ c.toNat ∧ blockCount a c ≤ s.depth ∧ allValid s (blockCount a c) = true
  | .absorb _, s =>
      s.evalState = .active ∧ s.k.toNat + 1 ≠ s.m.toNat ∧
        (1 ≤ s.m.toNat - s.k.toNat ∧ s.m.toNat - s.k.toNat ≤ s.depth)
  | .finish, s => s.evalState = .active ∧ s.k.toNat + 1 = s.m.toNat ∧ 1 ≤ s.depth
  | .rdAcc, s => s.evalState = .done
  | .verify, s => s.evalState = .done ∧ (s.ivsV = true ∧ s.tagsV = true ∧ s.tagV = true)

/-- An outcome of `exec`: the abort, the success under its guard, or the one fault. It is never refused. -/
theorem exec_outcomes (i : Instr) (s : State) :
    (∃ e, ¬Guard i s ∧ exec i s = .next (raise e s)) ∨ (Guard i s ∧ exec i s = .next (success i s)) ∨
      (¬Guard i s ∧ s.evalState = .active ∧ exec i s = .fault .noSuchEntry) := by
  cases i <;> simp only [exec, Guard]
  case nop => exact .inr (.inl ⟨trivial, rfl⟩)
  case clr => exact .inr (.inl ⟨trivial, rfl⟩)
  case rdStatus => exact .inr (.inl ⟨trivial, rfl⟩)
  case setCfg d =>
    rcases execSetCfg_cases d s with ⟨h, e⟩ | ⟨-, h, e⟩ | ⟨h, hd, e⟩
    · exact .inl ⟨_, fun g => g.1 h, e⟩
    · exact .inl ⟨_, fun g => h g.2, e⟩
    · exact .inr (.inl ⟨⟨h, hd⟩, e⟩)
  case wrPt idx v =>
    rcases execWrPt_cases idx v s with ⟨h, e⟩ | ⟨-, h, e⟩ | ⟨h, hd, e⟩
    · exact .inl ⟨_, fun g => g.1 h, e⟩
    · exact .inl ⟨_, fun g => h g.2, e⟩
    · exact .inr (.inl ⟨⟨h, hd⟩, e⟩)
  case wrIvs v =>
    rcases execWrIvs_cases v s with ⟨h, e⟩ | ⟨h, e⟩
    · exact .inl ⟨_, fun g => g h, e⟩
    · exact .inr (.inl ⟨h, e⟩)
  case wrTags v =>
    rcases execWrTags_cases v s with ⟨h, e⟩ | ⟨h, e⟩
    · exact .inl ⟨_, fun g => g h, e⟩
    · exact .inr (.inl ⟨h, e⟩)
  case wrTag v =>
    rcases execWrTag_cases v s with ⟨h, e⟩ | ⟨h, e⟩
    · exact .inl ⟨_, fun g => g h, e⟩
    · exact .inr (.inl ⟨h, e⟩)
  case start a c =>
    rcases execStart_cases a c s with ⟨h, e⟩ | ⟨-, h, e⟩ | ⟨-, -, h, e⟩ | ⟨h, hc, hd, hv, e⟩
    · exact .inl ⟨_, fun g => g.1 h, e⟩
    · exact .inl ⟨_, fun g => absurd g.2.1 (Nat.not_le.2 h), e⟩
    · refine .inl ⟨_, fun g => ?_, e⟩
      rcases h with h | h
      · exact absurd g.2.2.1 (Nat.not_le.2 h)
      · simp [h] at g
    · exact .inr (.inl ⟨⟨h, hc, hd, hv⟩, e⟩)
  case absorb w =>
    rcases execAbsorb_cases w s with ⟨h, e⟩ | ⟨-, h, e⟩ | ⟨ha, -, h, e⟩ | ⟨h, hk, hd, e⟩
    · exact .inl ⟨_, fun g => h g.1, e⟩
    · exact .inl ⟨_, fun g => g.2.1 h, e⟩
    · exact .inr (.inr ⟨fun g => h g.2.2, ha, e⟩)
    · exact .inr (.inl ⟨⟨h, hk, hd⟩, e⟩)
  case finish =>
    rcases execFinish_cases s with ⟨h, e⟩ | ⟨-, h, e⟩ | ⟨ha, -, h, e⟩ | ⟨h, hk, hd, e⟩
    · exact .inl ⟨_, fun g => h g.1, e⟩
    · exact .inl ⟨_, fun g => h g.2.1, e⟩
    · exact .inr (.inr ⟨fun g => by simp [h] at g, ha, e⟩)
    · exact .inr (.inl ⟨⟨h, hk, hd⟩, e⟩)
  case rdAcc =>
    rcases execRdAcc_cases s with ⟨h, e⟩ | ⟨h, e⟩
    · exact .inl ⟨_, h, e⟩
    · exact .inr (.inl ⟨h, e⟩)
  case verify =>
    rcases execVerify_cases s with ⟨h, e⟩ | ⟨-, h, e⟩ | ⟨h, hl, hr, e⟩ | ⟨h, hl, hr, e⟩
    · exact .inl ⟨_, fun g => h g.1, e⟩
    · exact .inl ⟨_, fun g => h g.2, e⟩
    · refine .inr (.inl ⟨⟨h, hl⟩, ?_⟩)
      simp [e, success, reply, effect, hr]
    · refine .inr (.inl ⟨⟨h, hl⟩, ?_⟩)
      simp [e, success, reply, effect, hr]

/-- The next states of `exec`. -/
theorem exec_next_cases {i : Instr} {s t : State} (h : exec i s = .next t) :
    (¬Guard i s ∧ ∃ e, t = raise e s) ∨ (Guard i s ∧ t = success i s) := by
  rcases exec_outcomes i s with ⟨e, hg, he⟩ | ⟨hg, he⟩ | ⟨-, -, he⟩ <;> rw [he] at h
  · exact .inl ⟨hg, e, by simpa using h.symm⟩
  · exact .inr ⟨hg, by simpa using h.symm⟩
  · simp at h

/-- Under its guard a command succeeds. -/
theorem exec_of_guard {i : Instr} {s : State} (h : Guard i s) : exec i s = .next (success i s) := by
  rcases exec_outcomes i s with ⟨e, hg, -⟩ | ⟨-, he⟩ | ⟨hg, -, -⟩
  · exact absurd h hg
  · exact he
  · exact absurd h hg

/-- The reply of a successful command is no error. -/
theorem reply_no_error (i : Instr) (s : State) (e : ErrCode) : (reply i s).code ≠ .err e := by
  cases i <;> simp [reply]
  split <;> simp

@[simp] theorem success_rspPort (i : Instr) (s : State) : (success i s).rspPort = some (reply i s) := rfl

end Sys2Proof.Machine
end

