-- ==== Sys2Proof/Laws/Flags.lean ====
section
/-! SUPPORT. What PT_N and the STATUS view depend on, and what a run of valid entries says. -/

namespace Sys2Proof.Machine

/-- A run depends on PT_DEPTH and the valid bits alone. -/
theorem validRun_congr {s t : State} (hd : s.depth = t.depth) (hv : s.ptv = t.ptv) (fuel n : Nat) :
    validRun s fuel n = validRun t fuel n := by
  induction fuel generalizing n with
  | zero => rfl
  | succ fuel ih =>
    have he : entryExists s (n + 1) = entryExists t (n + 1) := by rw [entryExists, entryExists, hd]
    have hp : ptValid s (n + 1) = ptValid t (n + 1) := by rw [ptValid, ptValid, hv]
    rw [validRun, validRun, he, hp, ih]

/-- PT_N depends on PT_DEPTH and the valid bits alone (R21). -/
theorem ptN_congr {s t : State} (hd : s.depth = t.depth) (hv : s.ptv = t.ptv) : ptN s = ptN t := by
  rw [ptN, ptN, hv, validRun_congr hd hv]

@[simp] theorem ptN_respond (c : RspCode) (d : Word128) (s : State) : ptN (respond c d s) = ptN s :=
  ptN_congr rfl rfl

@[simp] theorem statusView_respond (c : RspCode) (d : Word128) (s : State) :
    statusView (respond c d s) = statusView s := by simp [statusView]

/-- A run never gets shorter. -/
theorem validRun_ge (s : State) (fuel n : Nat) : n ≤ validRun s fuel n := by
  induction fuel generalizing n with
  | zero => exact le_refl n
  | succ fuel ih =>
    simp only [validRun]
    split
    · exact Nat.le_trans (Nat.le_succ n) (ih (n + 1))
    · exact le_refl n

/-- Every entry a run passes exists and is valid. -/
theorem validRun_valid (s : State) (fuel n j : Nat) (h1 : n < j) (h2 : j ≤ validRun s fuel n) :
    ptValid s j = true ∧ j ≤ s.depth := by
  induction fuel generalizing n with
  | zero => simp only [validRun] at h2; omega
  | succ fuel ih =>
    simp only [validRun] at h2
    split at h2
    · next h =>
      simp only [Bool.and_eq_true, entryExists_iff] at h
      by_cases hj : j = n + 1
      · subst hj
        exact ⟨h.2, h.1.2⟩
      · exact ih (n + 1) (by omega) h2
    · omega

/-- A concatenation as a number. -/
theorem toNat_append_add {n m : Nat} (a : BitVec n) (b : BitVec m) : (a ++ b).toNat = a.toNat * 2 ^ m + b.toNat := by
  rw [BitVec.toNat_append, ← Nat.shiftLeft_add_eq_or_of_lt b.isLt, Nat.shiftLeft_eq]

/-- The STATUS view as a number, one field after the other. -/
theorem statusView_toNat (s : State) : (statusView s).toNat =
    (((((((((((s.depth % 2 ^ 16) * 2 ^ 16 + s.k.toNat) * 2 ^ 16 + s.m.toNat) * 2 ^ 16 + ptN s % 2 ^ 16) * 2 ^ 8
      + s.errcode.toNat) * 2 + s.verdict.toNat) * 2 + s.vv.toNat) * 2 + s.tagV.toNat) * 2 + s.tagsV.toNat) * 2
      + s.ivsV.toNat) * 2 + s.norm.toNat) * 4 + (stateBits s.evalState).toNat := by
  unfold statusView
  change BitVec.toNat (w := 48 + 16 + 16 + 16 + 16 + 8 + 1 + 1 + 1 + 1 + 1 + 1 + 2) _ = _
  simp only [toNat_append_add, BitVec.toNat_ofNat, BitVec.toNat_ofBool]
  omega

end Sys2Proof.Machine
end

