-- ==== Sys2Proof/Laws/PerInstr.lean ====
section
/-! SUPPORT. Per instruction: the command of a well-formed instruction is selected by a row of the opcode map, and that row
gives the instruction back. -/

namespace Sys2Proof.Laws.EncodedByARow

/-- Some row selects the encoded word and builds the instruction from the encoded command. -/
def Statement (i : Instr) : Prop :=
  i.wf = true → ∃ r ∈ opcodeTable, rowSelects r (encode i).word = true ∧ r.build (encode i) = i

theorem nop : Statement .nop := fun _ => ⟨controlRows[0], by simp [opcodeTable, controlRows], by decide, rfl⟩

theorem clr : Statement .clr := fun _ => ⟨controlRows[1], by simp [opcodeTable, controlRows], by decide, rfl⟩

theorem setCfg (data : Word128) : Statement (.setCfg data) :=
  fun _ => ⟨controlRows[2], by simp [opcodeTable, controlRows], by simp only [encode]; decide, rfl⟩

theorem rdStatus : Statement .rdStatus := fun _ => ⟨controlRows[3], by simp [opcodeTable, controlRows], by decide, rfl⟩

theorem wrPt (idx : Nat) (v : Word128) : Statement (.wrPt idx v) := fun hw => by
  have h : idx < 2 ^ 16 := by simpa [Instr.wf] using hw
  refine ⟨loadRows[0], by simp [opcodeTable, loadRows], ?_, ?_⟩
  · simp [loadRows, rowSelects, encode, formatX_masked]
  · simp [loadRows, encode, idxField_formatX _ idx h]

theorem wrIvs (v : Word128) : Statement (.wrIvs v) :=
  fun _ => ⟨loadRows[1], by simp [opcodeTable, loadRows], by simp only [encode]; decide, rfl⟩

theorem wrTags (v : Word128) : Statement (.wrTags v) :=
  fun _ => ⟨loadRows[2], by simp [opcodeTable, loadRows], by simp only [encode]; decide, rfl⟩

theorem wrTag (v : Word128) : Statement (.wrTag v) :=
  fun _ => ⟨loadRows[3], by simp [opcodeTable, loadRows], by simp only [encode]; decide, rfl⟩

theorem start (a c : Word64) : Statement (.start a c) := fun _ => by
  refine ⟨ghashRows[0], by simp [opcodeTable, ghashRows], by simp only [encode]; decide, ?_⟩
  simp [ghashRows, encode]

theorem absorb (w : Word128) : Statement (.absorb w) :=
  fun _ => ⟨ghashRows[1], by simp [opcodeTable, ghashRows], by simp only [encode]; decide, rfl⟩

theorem finish : Statement .finish := fun _ => ⟨ghashRows[2], by simp [opcodeTable, ghashRows], by decide, rfl⟩

theorem rdAcc : Statement .rdAcc := fun _ => ⟨ghashRows[3], by simp [opcodeTable, ghashRows], by decide, rfl⟩

theorem verify : Statement .verify := fun _ => ⟨ghashRows[4], by simp [opcodeTable, ghashRows], by decide, rfl⟩

end Sys2Proof.Laws.EncodedByARow
end

