-- ==== Sys2Proof/Tests/Slice0.lean ====
section
/-! SUPPORT. Tests, each on one word or one step, with the results of spec/95_test_vectors.md (the vector's name stands
in the docstring); then, for every statement with hypotheses, states and operands that meet them. -/

open Sys2Proof Sys2Proof.Machine

namespace Sys2Proof.Tests

/-! ### Well-formedness -/

/-- Not well formed: the index has no 16-bit field (R53). -/
theorem test_wf_refuses_wide_index : (Instr.wrPt 65536 0#128).wf = false := by decide

/-- Well formed: the largest index of the field. Witness of DecodeOfEncode. -/
theorem test_witness_DecodeOfEncode : (Instr.wrPt 65535 0#128).wf = true := by decide

/-! ### Decoding: the words of R54, bit by bit -/

/-- Opcode bits 0000_0000. -/
theorem test_decode_nop :
    decode ⟨0b00000000_00000000_00000000_00000000#32, 7#128⟩ = .instr .nop := by decide
/-- Opcode bits 0000_0001. -/
theorem test_decode_clr :
    decode ⟨0b00000001_00000000_00000000_00000000#32, 7#128⟩ = .instr .clr := by decide
/-- Opcode bits 0000_0010, and NORM in bit 0 of the operand. -/
theorem test_decode_set_cfg :
    decode ⟨0b00000010_00000000_00000000_00000000#32, 1#128⟩ = .instr (.setCfg 1#128) := by decide
/-- Opcode bits 0000_0011. -/
theorem test_decode_rd_status :
    decode ⟨0b00000011_00000000_00000000_00000000#32, 0#128⟩ = .instr .rdStatus := by decide
/-- Opcode bits 0001_0000, eight reserved zeros, index 9. -/
theorem test_decode_wr_pt :
    decode ⟨0b00010000_00000000_00000000_00001001#32, 5#128⟩ = .instr (.wrPt 9 5#128) := by decide
/-- Opcode bits 0001_0001. -/
theorem test_decode_wr_ivs :
    decode ⟨0b00010001_00000000_00000000_00000000#32, 5#128⟩ = .instr (.wrIvs 5#128) := by decide
/-- Opcode bits 0001_0010. -/
theorem test_decode_wr_tags :
    decode ⟨0b00010010_00000000_00000000_00000000#32, 5#128⟩ = .instr (.wrTags 5#128) := by decide
/-- Opcode bits 0001_0011. -/
theorem test_decode_wr_tag :
    decode ⟨0b00010011_00000000_00000000_00000000#32, 5#128⟩ = .instr (.wrTag 5#128) := by decide
/-- Opcode bits 0010_0000; program P1, step 6: A = 20 above C = 33. -/
theorem test_decode_start :
    decode ⟨0b00100000_00000000_00000000_00000000#32, 0x00000000000000140000000000000021#128⟩
      = .instr (.start 20#64 33#64) := by decide
/-- Opcode bits 0010_0001. -/
theorem test_decode_absorb :
    decode ⟨0b00100001_00000000_00000000_00000000#32, 5#128⟩ = .instr (.absorb 5#128) := by decide
/-- Opcode bits 0010_0010. -/
theorem test_decode_finish :
    decode ⟨0b00100010_00000000_00000000_00000000#32, 5#128⟩ = .instr .finish := by decide
/-- Opcode bits 0010_0011. -/
theorem test_decode_rd_acc :
    decode ⟨0b00100011_00000000_00000000_00000000#32, 5#128⟩ = .instr .rdAcc := by decide
/-- Opcode bits 0011_0000. -/
theorem test_decode_verify :
    decode ⟨0b00110000_00000000_00000000_00000000#32, 5#128⟩ = .instr .verify := by decide

/-- V-E1 to V-E5: a reserved bit of a row's format, and reserved opcodes. -/
theorem test_decode_illegal :
    decode ⟨0x00000001#32, 0#128⟩ = .illegal (.reservedBits 0x00#8) ∧
    decode ⟨0x10010001#32, 0#128⟩ = .illegal (.reservedBits 0x10#8) ∧
    decode ⟨0x03800000#32, 0#128⟩ = .illegal (.reservedBits 0x03#8) ∧
    decode ⟨0x20000001#32, 0#128⟩ = .illegal (.reservedBits 0x20#8) ∧
    decode ⟨0x04000000#32, 0#128⟩ = .illegal (.reservedOpcode 0x04#8) ∧
    decode ⟨0xFF000000#32, 0#128⟩ = .illegal (.reservedOpcode 0xFF#8) := by decide

/-- The words of the opcode table, without operand bits. -/
theorem test_table_words :
    decodeTableWord 32 0x1000FFFF = some (.wrPt 65535 0#128) ∧
    decodeTableWord 32 0x21000000 = some (.absorb 0#128) ∧ decodeTableWord 32 0x24000000 = none := by decide

/-- The encoding of program P1, step 6, and of V-W4. -/
theorem test_encode :
    encode (.start 20#64 33#64) = ⟨0x20000000#32, 0x00000000000000140000000000000021#128⟩ ∧
    encode (.wrPt 65535 3#128) = ⟨0x1000FFFF#32, 3#128⟩ := by decide

/-- Program P2, steps 1, 2 and 4, as assembly lines with a comment (R61). -/
theorem test_assemble :
    assemble ["SET_CFG norm=0 ; no normalisation".toList,
        "WR_PT 1, 0x66e94bd4ef8a2c3b884cfa59ca342b2e".toList, "START aad=0, ct=32".toList] =
      some [⟨0x02000000#32, 0#128⟩, ⟨0x10000001#32, 0x66e94bd4ef8a2c3b884cfa59ca342b2e#128⟩,
        ⟨0x20000000#32, 32#128⟩] := by decide

/-- The model's choices of log 6: `_` before, in and right after the prefix is refused; leading zeros and spaces are not. -/
theorem test_assemble_choices :
    v128 "_0x0388dace60b6a392f328c2b971b2fe78".toList = none ∧ v128 "0_x0388dace60b6a392f328c2b971b2fe78".toList = none ∧
    v128 "0x_0388dace60b6a392f328c2b971b2fe78".toList = none ∧ v128 "0x0388dace60b6a392f328c2b971b2fe78_".toList = none ∧
    asmLine " SET_CFG norm = 01".toList = some [⟨0x02000000#32, 1#128⟩] := by decide

/-- GHASH expands to START, ABSORB, FINISH; the index 0 and a value of 31 digits are refused (R61, R62). -/
theorem test_assemble_pseudo :
    asmLine "GHASH aad=0, ct=32, 0x0388dace60b6a392_f328c2b971b2fe78".toList =
      some [⟨0x20000000#32, 32#128⟩, ⟨0x21000000#32, 0x0388dace60b6a392f328c2b971b2fe78#128⟩,
        ⟨0x22000000#32, 0#128⟩] ∧
    asmLine "WR_PT 0, 0x66e94bd4ef8a2c3b884cfa59ca342b2e".toList = none ∧
    asmLine "WR_TAG 0x6e94bd4ef8a2c3b884cfa59ca342b2e".toList = none := by decide

/-! ### Operand functions -/

/-- V-N6 and V-N3. -/
theorem test_norm :
    normWord 0x0123456789abcdef0011223344556677#128 = 0x80c4a2e691d5b3f7008844cc22aa66ee#128 ∧
    byteSwap 1#128 = 0x01000000000000000000000000000000#128 ∧
    normWord 1#128 = 0x80#128 := by
  set_option maxRecDepth 20000 in decide

/-- V-G4, V-G6 and V-G8. -/
theorem test_gmul :
    gmul 0x40000000000000000000000000000000#128 1#128 = 0xe1000000000000000000000000000000#128 ∧
    gmul 1#128 1#128 = 0xe6080000000000000000000000000003#128 ∧
    gmul 0x66e94bd4ef8a2c3b884cfa59ca342b2e#128 0x66e94bd4ef8a2c3b884cfa59ca342b2e#128 =
      0xa569901bb4b18906f5059d24465c904d#128 := by
  set_option maxRecDepth 20000 in decide

/-- V-M1 to V-M4. -/
theorem test_maskw :
    maskw 1 = 0xff000000000000000000000000000000#128 ∧ maskw 4 = 0xffffffff000000000000000000000000#128 ∧
    maskw 15 = 0xffffffffffffffffffffffffffffff00#128 ∧
    maskw 16 = 0xffffffffffffffffffffffffffffffff#128 := by decide

/-- V-L1, V-L5 and V-L6. -/
theorem test_lenblock :
    blockCount 0#64 16#64 = 1 ∧ lenblock 0#64 16#64 = 0#128 ∧
    blockCount 1#64 17#64 = 3 ∧ lenblock 1#64 17#64 = 0x00000000000000080000000000000008#128 ∧
    blockCount 20#64 33#64 = 5 ∧ lenblock 20#64 33#64 = 0x00000000000000a00000000000000088#128 := by decide

/-! ### States for the tests: PT_DEPTH = 8, the powers H and H^2 of GCM test case 2, NORM = 0 -/

def fresh : State := State.resetWith 8

def powers : State :=
  { fresh with
    norm := false, ptv := [1, 2]
    pt := [(1, 0x66e94bd4ef8a2c3b884cfa59ca342b2e#128), (2, 0xa569901bb4b18906f5059d24465c904d#128)] }

/-- After START aad=0, ct=c, K = 0. -/
def started (c : Word64) : State := { powers with evalState := .active, lenC := c, m := 2#16 }

/-- After START aad=0, ct=32 and V-A1. -/
def absorbed : State := { started 32#64 with k := 1#16, acc := 0x55e2e710a4375305aa656d0b81ecdc3f#128 }

/-- V-F1. -/
def finished : State :=
  { powers with
    evalState := .done, lenC := 32#64, m := 2#16, k := 2#16, acc := 0xf38cbb1ad69223dcc3457ae5b6b0f885#128 }

/-- V-V1, before its VERIFY. -/
def complete : State :=
  { finished with
    ivs := 0x58e2fccefa7e3061367f1d57a4e7455a#128, ivsV := true, tags := 0#128, tagsV := true
    tag := 0xab6e47d42cec13bdf53a67b21257bddf#128, tagV := true }

/-- V-V1, after its VERIFY. -/
def verified : State := { complete with verdict := true, vv := true }

/-- The next state, if there is one. -/
def ran : Host.Outcome State Fault Refusal → Option State
  | .next t => some t
  | .fault _ => none
  | .refused _ => none

/-- The state of an outcome, or `fresh`. -/
def outcome (o : Host.Outcome State Fault Refusal) : State := (ran o).getD fresh

/-- The code and datum of an outcome's response. -/
def rsp (o : Host.Outcome State Fault Refusal) : Option (Byte × Word128) :=
  (answer o).map (fun r => (rspByte r.code, r.data))

/-! ### One step of each command -/

/-- V-C4: the evaluation goes on. -/
theorem test_nop : ran (exec .nop absorbed) = some { absorbed with rspPort := some ⟨.ok, 0#128⟩ } := by decide

/-- V-C5. -/
theorem test_clr : ran (exec .clr absorbed) = some { fresh with rspPort := some ⟨.ok, 0#128⟩ } := by decide

/-- V-C6, and a write of NORM. -/
theorem test_set_cfg :
    rsp (exec (.setCfg 2#128) fresh) = some (0x81#8, 0#128) ∧ (outcome (exec (.setCfg 2#128) fresh)).norm = true ∧
    (outcome (exec (.setCfg 0#128) fresh)).norm = false := by decide

/-- V-C8, and the status of V-V8 after SET_CFG. -/
theorem test_set_cfg_order :
    rsp (exec (.setCfg 2#128) absorbed) = some (0x82#8, 0#128) ∧
    statusView (outcome (exec (.setCfg 0#128) { verified with verdict := false })) =
      0x00000000000000080002000200000032#128 := by decide

/-- V-C1 and V-C3. -/
theorem test_rd_status :
    rsp (exec .rdStatus fresh) = some (0x00#8, 0x00000000000000080000000000000004#128) ∧
    rsp (exec .rdStatus absorbed) = some (0x00#8, 0x00000000000000080001000200020001#128) := by decide

/-- V-W1. -/
theorem test_wr_pt :
    outcome (exec (.wrPt 3 0x0123456789abcdef0011223344556677#128) fresh) =
      { fresh with
        pt := [(3, 0x80c4a2e691d5b3f7008844cc22aa66ee#128)], ptv := [3], rspPort := some ⟨.ok, 0#128⟩ } := by
  set_option maxRecDepth 20000 in decide

/-- V-W3, V-W4 and V-W7. -/
theorem test_wr_pt_errors :
    rsp (exec (.wrPt 0 1#128) fresh) = some (0x83#8, 0#128) ∧ rsp (exec (.wrPt 9 1#128) fresh) = some (0x83#8, 0#128) ∧
    rsp (exec (.wrPt 0 1#128) absorbed) = some (0x82#8, 0#128) := by decide

/-- V-W8. -/
theorem test_wr_ivs : (outcome (exec (.wrIvs 1#128) fresh)).ivs = 0x80#128 := by
  set_option maxRecDepth 20000 in decide

/-- V-W9. -/
theorem test_wr_tags : (outcome (exec (.wrTags 1#128) fresh)).tags = 1#128 := by decide

/-- V-W10. -/
theorem test_wr_tag :
    (outcome (exec (.wrTag 1#128) verified)).vv = false ∧ (outcome (exec (.wrTag 1#128) verified)).tag = 1#128 := by decide

/-- V-S2. -/
theorem test_start :
    ran (exec (.start 0#64 32#64) powers) = some { started 32#64 with rspPort := some ⟨.ok, 0#128⟩ } := by decide

/-- V-S3, V-S5, V-S7 and V-S8. -/
theorem test_start_errors :
    rsp (exec (.start 0#64 15#64) powers) = some (0x84#8, 0#128) ∧
    rsp (exec (.start 0xFFFFFFFFFFFFFFFF#64 16#64) powers) = some (0x85#8, 0#128) ∧
    rsp (exec (.start 1#64 17#64) powers) = some (0x85#8, 0#128) ∧
    rsp (exec (.start 0#64 64#64) { powers with ptv := [1, 2, 3, 5] }) = some (0x85#8, 0#128) := by decide

/-- V-A1. -/
theorem test_absorb :
    ran (exec (.absorb 0x0388dace60b6a392f328c2b971b2fe78#128) (started 32#64)) =
      some { absorbed with rspPort := some ⟨.ok, 0#128⟩ } := by
  set_option maxRecDepth 20000 in decide

/-- V-A3 and V-A8. -/
theorem test_absorb_mask :
    (outcome (exec (.absorb 0xdeadbeefffffffffffffffffffffffff#128) (started 20#64))).acc =
      0xe329efad1008e2ce87932a6d5c54a700#128 ∧
    rsp (exec (.absorb 0#128) absorbed) = some (0x82#8, 0#128) := by decide

/-- V-F1. -/
theorem test_finish : ran (exec .finish absorbed) = some { finished with rspPort := some ⟨.ok, 0#128⟩ } := by
  set_option maxRecDepth 20000 in decide

/-- V-F6: FINISH before the last data block. -/
theorem test_finish_early :
    ran (exec .finish (started 32#64)) = some { powers with errcode := 0x82#8, rspPort := some ⟨.err .sequence, 0#128⟩ } := by decide

/-- V-F8 and V-F9. -/
theorem test_rd_acc :
    rsp (exec .rdAcc finished) = some (0x00#8, 0xf38cbb1ad69223dcc3457ae5b6b0f885#128) ∧
    rsp (exec .rdAcc fresh) = some (0x82#8, 0#128) := by decide

/-- V-V1. -/
theorem test_verify : ran (exec .verify complete) = some { verified with rspPort := some ⟨.pass, 0#128⟩ } := by decide

/-- V-V2, V-V6 and V-V7. -/
theorem test_verify_others :
    rsp (exec .verify { complete with tag := 0xab6e47d42cec13bdf53a67b21257bdde#128 }) = some (0x02#8, 0#128) ∧
    rsp (exec .verify finished) = some (0x86#8, 0#128) ∧ rsp (exec .verify fresh) = some (0x82#8, 0#128) := by decide

/-- V-E5: a reserved bit in the word comes before the state, and aborts. -/
theorem test_illegal_step :
    outcome (step (absorbed.withFetchWord 32 0x20000001)) =
      { powers with errcode := 0x81#8, rspPort := some ⟨.err .illegal, 0#128⟩ } := by decide

/-- The next step runs the word `withFetchWord` places. -/
theorem test_fetch_step :
    ran (step (absorbed.withFetchWord 32 0x22000000)) = some { finished with rspPort := some ⟨.ok, 0#128⟩ } := by
  set_option maxRecDepth 20000 in decide

/-! ### Witnesses: for every statement with hypotheses, concrete states and operands that meet them -/

/-- A Boolean form of the invariant. -/
def invCheck (s : State) : Bool :=
  decide (1 ≤ s.depth ∧ s.depth ≤ 65535) &&
  decide (Table.wf s.pt ∧ ∀ e ∈ s.pt, 1 ≤ e.1 ∧ e.1 ≤ s.depth) &&
  decide (s.ptv.Pairwise (· < ·) ∧ ∀ i ∈ s.ptv, 1 ≤ i ∧ i ≤ s.depth) &&
  decide (s.evalState = .idle →
    s.acc = 0#128 ∧ s.m = 0#16 ∧ s.k = 0#16 ∧ s.lenA = 0#64 ∧ s.lenC = 0#64 ∧ s.vv = false) &&
  decide (s.evalState = .active →
    1 ≤ s.m.toNat ∧ s.m.toNat ≤ s.depth ∧ s.k.toNat + 1 ≤ s.m.toNat ∧ allValid s s.m.toNat = true) &&
  decide (s.evalState = .done → s.k = s.m ∧ 1 ≤ s.m.toNat) &&
  decide (s.evalState ≠ .idle → 16 ≤ s.lenC.toNat ∧ s.m.toNat = blockCount s.lenA s.lenC) &&
  decide (s.vv = true → s.evalState = .done) && decide (s.vv = false → s.verdict = false) &&
  decide (s.vv = true → s.ivsV = true ∧ s.tagsV = true ∧ s.tagV = true ∧ s.verdict = decide (recon s = s.tag)) &&
  decide (s.errcode = 0#8 ∨ s.errcode = 0x81#8 ∨ s.errcode = 0x82#8)

theorem inv_of_check {s : State} (h : invCheck s = true) : Machine.Inv s := by
  simp only [invCheck, Bool.and_eq_true, decide_eq_true_eq] at h
  obtain ⟨⟨⟨⟨⟨⟨⟨⟨⟨⟨h1, h2⟩, h3⟩, h4⟩, h5⟩, h6⟩, h7⟩, h8⟩, h9⟩, h10⟩, h11⟩ := h
  refine ⟨h1.1, h1.2, h2.1, h2.2, h3.1, h3.2, h4, fun ha => ?_, h6, h7, h8, h9, h10, ?_⟩
  · obtain ⟨a, b, c, d⟩ := h5 ha
    exact ⟨a, b, c, (allValid_iff s _).1 d⟩
  · rcases h11 with h | h | h
    · exact .inl h
    · exact .inr ⟨.illegal, h⟩
    · exact .inr ⟨.sequence, h⟩

/-- The next state of a command. -/
def gives (i : Instr) (s : State) : State := outcome (exec i s)

/-- A next state, where there is one. -/
theorem next_of_some : ∀ {o : Host.Outcome State Fault Refusal}, (ran o).isSome = true → o = .next (outcome o)
  | .next _, _ => rfl

theorem exec_gives {i : Instr} {s : State} (h : (ran (exec i s)).isSome = true) : exec i s = .next (gives i s) :=
  next_of_some h

theorem inv_fresh : Machine.Inv fresh := inv_of_check (by decide)
theorem inv_started : Machine.Inv (started 32#64) := inv_of_check (by decide)
theorem inv_absorbed : Machine.Inv absorbed := inv_of_check (by decide)
theorem inv_finished : Machine.Inv finished := inv_of_check (by decide)
theorem inv_verified : Machine.Inv verified := inv_of_check (by decide)

/-- RD_STATUS, as a command. -/
def rdStatusCmd : Command := ⟨0x03000000#32, 0#128⟩

/-- A command on the port of the reset state. -/
def offered (w : CmdWord) : State := { fresh with cmdPort := some ⟨w, 0#128⟩ }

theorem test_witness_EncodeOfDecode :
    decode ⟨0x1000FFFF#32, 5#128⟩ = .instr (.wrPt 65535 5#128) ∧ takesData (.wrPt 65535 5#128) = true := by decide

theorem test_witness_DecodingIsTotalAndUnambiguous :
    (∃ i j : Fin opcodeTable.length,
      rowSelects opcodeTable[i] 0x1000FFFF#32 = true ∧ rowSelects opcodeTable[j] 0x1000FFFF#32 = true) ∧
    (∃ r ∈ opcodeTable, rowSelects r 0x1000FFFF#32 = true) ∧
    (offered 0x04000000#32).cmdPort = some ⟨0x04000000#32, 0#128⟩ ∧ (offered 0x04000000#32).rspPort = none ∧
    ∀ r ∈ opcodeTable, rowSelects r 0x04000000#32 = false :=
  ⟨⟨⟨4, by decide⟩, ⟨4, by decide⟩, by decide, by decide⟩,
    ⟨opcodeTable[4], List.getElem_mem _, by decide⟩, rfl, rfl, by decide⟩

/-- Each reserved range at its ends, a reserved bit of either format, and the operand of SET_CFG. -/
theorem test_witness_ReservedEncodingsRaiseIllegal :
    (∀ w ∈ [0x04000000#32, 0x0F000000#32, 0x14000000#32, 0x1F000000#32, 0x24000000#32, 0x2F000000#32, 0x31000000#32,
        0xFF000000#32, 0x00000001#32, 0x30800000#32, 0x10010000#32, 0x10800000#32],
      (offered w).rspPort = none ∧
      let op := w.toNat / 2 ^ 24
      (4 ≤ op ∧ op ≤ 0x0F) ∨ (0x14 ≤ op ∧ op ≤ 0x1F) ∨ (0x24 ≤ op ∧ op ≤ 0x2F) ∨ 0x31 ≤ op ∨
        (op ≠ 0x10 ∧ w.toNat % 2 ^ 24 ≠ 0) ∨ (op = 0x10 ∧ w.toNat / 2 ^ 16 % 2 ^ 8 ≠ 0)) ∧
    (∀ w, (offered w).cmdPort = some ⟨w, 0#128⟩) ∧ fresh.evalState ≠ .active ∧ 2 ≤ (2#128).toNat :=
  ⟨by simp [offered, fresh, State.resetWith], fun _ => rfl, by decide, by decide⟩

theorem test_witness_StepRunsTheDecodedCommand :
    (offered 0x03000000#32).cmdPort = some rdStatusCmd ∧ (offered 0x03000000#32).rspPort = none ∧
      decode rdStatusCmd = .instr .rdStatus := by decide

/-- With an empty command port, and with a command and a response waiting. -/
theorem test_witness_ResetLeavesTheResetRegisters :
    ({ absorbed with host := [.reset] }.host = .reset :: [] ∧ { absorbed with host := [.reset] }.cmdPort = none) ∧
    { absorbed with host := [.reset], cmdPort := some rdStatusCmd, rspPort := some ⟨.ok, 0#128⟩ }.rspPort ≠ none := by
  set_option maxRecDepth 20000 in decide

/-- A state for each clause. -/
theorem test_witness_HostMovesAtThePorts :
    (fresh.cmdPort = none ∧ fresh.host = []) ∧
    (∃ s : State, s.rspPort ≠ none ∧ s.host = .take :: []) ∧
    (∃ s : State, s.cmdPort = none ∧ s.host = .present rdStatusCmd :: []) ∧
    (∃ s : State, s.rspPort ≠ none ∧ s.host = .present rdStatusCmd :: [] ∧ s.cmdPort ≠ none) :=
  ⟨by decide,
    ⟨{ fresh with rspPort := some ⟨.ok, 0#128⟩, host := [.take] }, by decide⟩,
    ⟨{ fresh with host := [.present rdStatusCmd] }, by decide⟩,
    ⟨{ offered 0#32 with rspPort := some ⟨.ok, 0#128⟩, host := [.present rdStatusCmd] }, by decide⟩⟩

theorem test_witness_NoCommandWhileAResponseWaits :
    ∃ s t : State, s.rspPort = some ⟨.ok, 0#128⟩ ∧ step s = .next t ∧ (∀ rest, s.host ≠ .reset :: rest) ∧
      s.cmdPort ≠ none :=
  ⟨{ offered 0#32 with rspPort := some ⟨.ok, 0#128⟩, host := [.take] }, _, rfl, next_of_some (by decide),
    (by intro rest h; cases h), by decide⟩

theorem test_witness_CommandsAreServedInOrder :
    Machine.Inv { fresh with host := served [rdStatusCmd, ⟨0x04000000#32, 0#128⟩] ++ [HostMove.reset] } ∧
      { fresh with host := served [rdStatusCmd, ⟨0x04000000#32, 0#128⟩] ++ [HostMove.reset] }.cmdPort = none ∧
      { fresh with host := served [rdStatusCmd, ⟨0x04000000#32, 0#128⟩] ++ [HostMove.reset] }.rspPort = none :=
  ⟨inv_of_check (by decide), by decide, by decide⟩

theorem test_witness_ResetMeetsTheInvariant : (1 ≤ 1 ∧ 1 ≤ 65535) ∧ (1 ≤ 65535 ∧ 65535 ≤ 65535) := by decide

/-- A step that runs FINISH; also of NoFaultUnderTheInvariant and DepthIsConstant. -/
theorem test_witness_StepKeepsTheInvariant :
    Machine.Inv (absorbed.withFetchWord 32 0x22000000) ∧
      step (absorbed.withFetchWord 32 0x22000000) = .next (outcome (step (absorbed.withFetchWord 32 0x22000000))) :=
  ⟨inv_of_check (by decide), next_of_some (by decide)⟩

/-- The commands of a run of reset to a verdict with m = 1: WR_PT 1, START, FINISH, CHECK, VERIFY. -/
def shortRun : State :=
  { fresh with
    host := served ((.wrPt 1 1#128 :: ghashSeq 0#64 16#64 [] ++ checkSeq 0#128 0#128 0#128).map encode) }

/-- Reachable states in IDLE, ACTIVE and DONE, and one with a verdict. -/
theorem test_witness_ReachableStatesSatisfyR32 :
    (core.run 0 shortRun = .next shortRun ∧ shortRun.evalState = .idle ∧ shortRun.vv = false) ∧
    (core.run 6 shortRun = .next (outcome (core.run 6 shortRun)) ∧
      (outcome (core.run 6 shortRun)).evalState = .active) ∧
    (core.run 9 shortRun = .next (outcome (core.run 9 shortRun)) ∧
      (outcome (core.run 9 shortRun)).evalState = .done) ∧
    (core.run 21 shortRun = .next (outcome (core.run 21 shortRun)) ∧
      (outcome (core.run 21 shortRun)).vv = true) :=
  ⟨⟨rfl, by decide, by decide⟩, ⟨next_of_some (by decide), by decide⟩,
    ⟨next_of_some (by decide), by decide⟩, ⟨next_of_some (by set_option maxRecDepth 20000 in decide), by set_option maxRecDepth 20000 in decide⟩⟩

/-- Both outcomes: a step, and the refused move of a host that breaks the handshake. -/
theorem test_witness_NoFaultUnderTheInvariant :
    Machine.Inv fresh ∧
      Machine.Inv { offered 0#32 with rspPort := some ⟨.ok, 0#128⟩, host := [.present rdStatusCmd] } :=
  ⟨inv_fresh, inv_of_check (by decide)⟩

theorem test_witness_DepthIsConstant : ∃ t, step (offered 0x01000000#32) = .next t :=
  ⟨_, next_of_some (by decide)⟩

/-- One error of each code that a decoded command can answer. -/
theorem test_witness_EveryErrorAborts :
    ∀ x ∈ [(Instr.setCfg 2#128, fresh, ErrCode.illegal), (.wrPt 9 0#128, verified, .index),
        (.start 0#64 15#64, verified, .tooShort), (.start 1#64 17#64, powers, .insufficient),
        (.verify, finished, .notLoaded), (.finish, fresh, .sequence)],
      (ran (exec x.1 x.2.1)).isSome = true ∧ (gives x.1 x.2.1).rspPort = some ⟨.err x.2.2, 0#128⟩ := by decide

/-- The second clause: a word that does not decode. -/
theorem test_witness_EveryErrorAborts_word :
    (offered 0xFF000000#32).cmdPort = some ⟨0xFF000000#32, 0#128⟩ ∧ (offered 0xFF000000#32).rspPort = none ∧
      decode ⟨0xFF000000#32, 0#128⟩ = .illegal (.reservedOpcode 0xFF#8) := by decide

/-- The last clause of ErrcodeIsTheLastError: a step that writes ERRCODE. -/
theorem test_witness_ErrcodeIsTheLastError_step :
    step (offered 0xFF000000#32) = .next (outcome (step (offered 0xFF000000#32))) ∧
      (outcome (step (offered 0xFF000000#32))).errcode = 0x81#8 := ⟨next_of_some (by decide), by decide⟩

/-- Refused by STATE; the wrong block count of ABSORB and of FINISH; a success. -/
theorem test_witness_CommandsAcceptedInEachState :
    acceptedIn .verify fresh.evalState = false ∧
    (acceptedIn (.absorb 0#128) absorbed.evalState = true ∧
      exec (.absorb 0#128) absorbed = .next (gives (.absorb 0#128) absorbed) ∧
      (gives (.absorb 0#128) absorbed).rspPort = some ⟨.err .sequence, 0#128⟩) ∧
    (acceptedIn .finish (started 32#64).evalState = true ∧
      exec .finish (started 32#64) = .next (gives .finish (started 32#64)) ∧
      (gives .finish (started 32#64)).rspPort = some ⟨.err .sequence, 0#128⟩) ∧
    (acceptedIn .finish absorbed.evalState = true ∧ exec .finish absorbed = .next (gives .finish absorbed) ∧
      (gives .finish absorbed).rspPort = some ⟨.ok, 0#128⟩) :=
  ⟨by decide, ⟨by decide, exec_gives (by decide), by decide⟩,
    ⟨by decide, exec_gives (by decide), by decide⟩,
    ⟨by decide, exec_gives (by decide), by decide⟩⟩

/-- The state before a command's own check, an own check, no error, and a word that does not decode. -/
theorem test_witness_TheFirstErrorIsReported :
    Machine.Inv absorbed ∧ firstError (.wrPt 0 0#128) absorbed = some .sequence ∧
    Machine.Inv fresh ∧ firstError (.wrPt 0 0#128) fresh = some .index ∧ firstError (.wrPt 8 0#128) fresh = none ∧
    (offered 0x04000000#32).cmdPort = some ⟨0x04000000#32, 0#128⟩ ∧
    decode ⟨0x04000000#32, 0#128⟩ = .illegal (.reservedOpcode 0x04#8) :=
  ⟨inv_absorbed, by decide, inv_fresh, by decide, by decide, by decide, by decide⟩

/-- An error, CLR, and a success that is not CLR; also of ResponseDatumIsZeroUnlessRead. -/
theorem test_witness_ErrcodeIsTheLastError :
    (exec .finish fresh = .next (gives .finish fresh) ∧
      (gives .finish fresh).rspPort = some ⟨.err .sequence, 0#128⟩) ∧
    (exec .clr fresh = .next (gives .clr fresh) ∧ (gives .clr fresh).rspPort = some ⟨.ok, 0#128⟩) ∧
    (exec .rdAcc finished = .next (gives .rdAcc finished) ∧
      (gives .rdAcc finished).rspPort = some ⟨.ok, finished.acc⟩) :=
  ⟨⟨exec_gives (by decide), by decide⟩, ⟨exec_gives (by decide), by decide⟩,
    ⟨exec_gives (by decide), by decide⟩⟩

/-- An error, RD_STATUS, a successful RD_ACC, and another command. -/
theorem test_witness_ResponseDatumIsZeroUnlessRead :
    exec .finish fresh = .next (gives .finish fresh) ∧ exec .rdStatus fresh = .next (gives .rdStatus fresh) ∧
    (exec .rdAcc finished = .next (gives .rdAcc finished) ∧
      (gives .rdAcc finished).rspPort = some ⟨.ok, finished.acc⟩) ∧
    exec .nop fresh = .next (gives .nop fresh) :=
  ⟨exec_gives (by decide), exec_gives (by decide),
    ⟨exec_gives (by decide), by decide⟩, exec_gives (by decide)⟩

/-- Every code that a decoded command can answer; the six errors are those of EveryErrorAborts. -/
theorem test_witness_WhichCommandAnswersWhichCode :
    (∀ x ∈ [(Instr.nop, fresh, RspCode.ok), (.verify, complete, .pass), (.verify, { complete with tags := 1#128 }, .fail),
        (.setCfg 2#128, fresh, .err .illegal), (.finish, fresh, .err .sequence), (.wrPt 9 0#128, fresh, .err .index),
        (.start 0#64 15#64, fresh, .err .tooShort), (.start 1#64 17#64, powers, .err .insufficient),
        (.verify, finished, .err .notLoaded)],
      (ran (exec x.1 x.2.1)).isSome = true ∧ (gives x.1 x.2.1).rspPort = some ⟨x.2.2, 0#128⟩) ∧
    (rspByte (.err .illegal)).getLsbD 7 = true := by decide

theorem test_witness_NopDoesNothing : (0#32).toNat < 2 ^ 24 ∧ (0xFFFFFF#32).toNat < 2 ^ 24 ∧ (0xFFFFFF#32) ≠ 0#32 := by
  set_option maxRecDepth 20000 in decide

/-- ACTIVE; a reserved bit; either value of NORM. -/
theorem test_witness_SetCfgInvalidatesEveryShare :
    absorbed.evalState = .active ∧ verified.evalState ≠ .active ∧ 2 ≤ (2#128).toNat ∧ (0#128).toNat < 2 ∧
      (1#128).toNat < 2 := by decide

theorem test_witness_StatusFieldsAreWhereR31SaysTheyAre : (1 ≤ 1 ∧ 1 ≤ 65535) ∧ (1 ≤ 65535 ∧ 65535 ≤ 65535) := by decide

/-- n = 2 = PT_N, and j = 1, 2. -/
theorem test_witness_PtNIsTheLongestValidRun :
    2 ≤ powers.depth ∧ ptN powers = 2 ∧ ∀ j, 1 ≤ j → j ≤ 2 → ptValid powers j = true :=
  ⟨by decide, by decide, (allValid_iff powers 2).1 (by decide)⟩

theorem test_witness_ValidBitsFollowTheWrites :
    (exec (.wrPt 3 1#128) powers = .next (gives (.wrPt 3 1#128) powers) ∧
      (gives (.wrPt 3 1#128) powers).rspPort = some ⟨.ok, 0#128⟩) ∧
    (exec (.setCfg 1#128) complete = .next (gives (.setCfg 1#128) complete) ∧
      (gives (.setCfg 1#128) complete).rspPort = some ⟨.ok, 0#128⟩) :=
  ⟨⟨exec_gives (by decide), by decide⟩, ⟨exec_gives (by decide), by decide⟩⟩

/-- WR_PT leaves a verdict valid. -/
theorem test_witness_AValidVerdictIsCurrent :
    Machine.Inv verified ∧ Instr.wrPt 3 1#128 ≠ .verify ∧
      exec (.wrPt 3 1#128) verified = .next (gives (.wrPt 3 1#128) verified) ∧
      (gives (.wrPt 3 1#128) verified).vv = true :=
  ⟨inv_verified, by decide, exec_gives (by decide), by decide⟩

theorem test_witness_NormIsByteSwapThenBitReversal : 15 < 16 ∧ 127 < 128 := by decide

theorem test_witness_NormReversesTheBitsOfEachByte : 15 < 16 ∧ 7 < 8 := by decide

/-- ACTIVE; the indices 0 and PT_DEPTH + 1; the indices 1 and PT_DEPTH; the last index of the field. -/
theorem test_witness_WrPtWritesOneEntry :
    65535 < 2 ^ 16 ∧ Table.wf absorbed.pt ∧ absorbed.evalState = .active ∧ Table.wf powers.pt ∧
    powers.evalState ≠ .active ∧ (0 = 0 ∨ powers.depth < 0) ∧ powers.depth < 9 ∧ 1 ≤ powers.depth ∧ 8 ≤ powers.depth := by
  set_option maxRecDepth 20000 in decide

/-- Either side of the state check of the four writes; also of WrTagsWritesTheTagShare and WrTagWritesTheTag. -/
theorem test_witness_WrIvsWritesTheShare : absorbed.evalState = .active ∧ verified.evalState ≠ .active := by
  set_option maxRecDepth 20000 in decide

theorem test_witness_WrTagsWritesTheTagShare : absorbed.evalState = .active ∧ fresh.evalState ≠ .active := by
  set_option maxRecDepth 20000 in decide

theorem test_witness_WrTagWritesTheTag : absorbed.evalState = .active ∧ finished.evalState ≠ .active := by decide

/-- A write, VERIFY and a read. -/
theorem test_witness_RepeatedCommandsChangeNothing :
    (Machine.Inv fresh ∧ exec (.wrPt 8 1#128) fresh = .next (gives (.wrPt 8 1#128) fresh) ∧
      (gives (.wrPt 8 1#128) fresh).rspPort = some ⟨.ok, 0#128⟩) ∧
    (Machine.Inv complete ∧ exec .verify complete = .next (gives .verify complete) ∧
      (gives .verify complete).rspPort = some ⟨.pass, 0#128⟩) ∧
    (Machine.Inv finished ∧ exec .rdAcc finished = .next (gives .rdAcc finished) ∧
      (gives .rdAcc finished).rspPort = some ⟨.ok, finished.acc⟩) :=
  ⟨⟨inv_fresh, exec_gives (by decide), by decide⟩,
    ⟨inv_of_check (by decide), exec_gives (by decide), by decide⟩,
    ⟨inv_finished, exec_gives (by decide), by decide⟩⟩

/-- The last byte of a full block; the one data block of an evaluation with C = 20; the last AAD block of V-L6. -/
theorem test_witness_PadBytesAreCleared :
    (15 < 16 ∧ 16 ≤ 16) ∧
    (16 ≤ (started 20#64).lenC.toNat ∧
      (started 20#64).m.toNat =
        ((started 20#64).lenA.toNat + 15) / 16 + ((started 20#64).lenC.toNat - 16 + 15) / 16 + 1 ∧
      1 ≤ 1 ∧ 1 ≤ (started 20#64).m.toNat - 1) ∧
    nbytes 20#64 33#64 5 2 = 4 ∧ nbytes 20#64 33#64 5 4 = 1 ∧ nbytes 20#64 33#64 5 3 = 16 := by decide

/-- The least length, and one with the block count 65535. -/
theorem test_witness_LengthBlockHoldsTheBitLengths :
    (16 ≤ (16#64).toNat ∧ ((0#64).toNat + 15) / 16 + ((16#64).toNat - 16 + 15) / 16 + 1 ≤ 65535) ∧
    (16 ≤ (1048560#64).toNat ∧ ((0#64).toNat + 15) / 16 + ((1048560#64).toNat - 16 + 15) / 16 + 1 ≤ 65535) := by
  set_option maxRecDepth 20000 in decide

theorem test_witness_AnyPadBytesGiveTheZeroPaddedBlock :
    [0xde#8, 0xad#8, 0xbe#8, 0xef#8].length + (List.replicate 12 0xaa#8).length = 16 ∧
      ([] : List Byte).length + (List.replicate 16 0xaa#8).length = 16 := by decide

/-- ACTIVE; C = 15; m = PT_DEPTH + 1, and a gap at 4; m = PT_N = 2. -/
theorem test_witness_StartBeginsAnEvaluation :
    (powers.depth ≤ 65535 ∧ absorbed.evalState = .active) ∧ (powers.evalState ≠ .active ∧ (15#64).toNat < 16) ∧
    (16 ≤ (144#64).toNat ∧ powers.depth < ((0#64).toNat + 15) / 16 + ((144#64).toNat - 16 + 15) / 16 + 1) ∧
    (16 ≤ (64#64).toNat ∧ 4 ≤ ((0#64).toNat + 15) / 16 + ((64#64).toNat - 16 + 15) / 16 + 1 ∧
      ptValid { powers with ptv := [1, 2, 3, 5] } 4 = false) ∧
    (16 ≤ (32#64).toNat ∧ ((0#64).toNat + 15) / 16 + ((32#64).toNat - 16 + 15) / 16 + 1 = 2 ∧ 2 ≤ powers.depth ∧
      ptValid powers 1 = true ∧ ptValid powers 2 = true) := by decide

/-- m = PT_N, and m = PT_N + 1. -/
theorem test_witness_StartNeedsMEntriesWithoutAGap :
    powers.evalState ≠ .active ∧ 16 ≤ (32#64).toNat ∧ ptN powers = blockCount 0#64 32#64 ∧
      ptN powers + 1 = blockCount 1#64 17#64 := by decide

/-- Outside ACTIVE; K = M - 1; K ≠ M - 1. -/
theorem test_witness_AbsorbFoldsTheNextBlock :
    (Machine.Inv finished ∧ finished.evalState ≠ .active) ∧
    (Machine.Inv absorbed ∧ absorbed.evalState = .active ∧ absorbed.k.toNat + 1 = absorbed.m.toNat) ∧
    (Machine.Inv (started 32#64) ∧ (started 32#64).evalState = .active ∧
      (started 32#64).k.toNat + 1 ≠ (started 32#64).m.toNat) :=
  ⟨⟨inv_finished, by decide⟩, ⟨inv_absorbed, by decide⟩, ⟨inv_started, by decide⟩⟩

/-- The same three. -/
theorem test_witness_FinishFoldsTheLengthBlock :
    (Machine.Inv fresh ∧ fresh.evalState ≠ .active) ∧
    (Machine.Inv (started 32#64) ∧ (started 32#64).evalState = .active ∧
      (started 32#64).k.toNat + 1 ≠ (started 32#64).m.toNat) ∧
    (Machine.Inv absorbed ∧ absorbed.evalState = .active ∧ absorbed.k.toNat + 1 = absorbed.m.toNat) :=
  ⟨⟨inv_fresh, by decide⟩, ⟨inv_started, by decide⟩, ⟨inv_absorbed, by decide⟩⟩

theorem test_witness_RdAccReturnsThePartialGhash : absorbed.evalState ≠ .done ∧ finished.evalState = .done := by
  set_option maxRecDepth 20000 in decide

/-- The block of GCM test case 2. -/
def block : Word128 := 0x0388dace60b6a392f328c2b971b2fe78#128

/-- A state with two valid entries is ready for one data block. -/
theorem ready_of_check {s : State} {c : Word64} {w : Word128} (h : invCheck s = true) (h1 : s.evalState ≠ .active)
    (h2 : 16 ≤ c.toNat) (h3 : blockCount 0#64 c = 2) (h4 : 2 ≤ s.depth) (h5 : allValid s 2 = true) :
    Ready 0#64 c [w] s :=
  ⟨inv_of_check h, h1, h2, by omega, by rw [h3]; exact h5, by simp [h3]⟩

theorem test_witness_PartialGhashIsTheDirectSum :
    Ready 0#64 32#64 [block] powers ∧
      [gmul (lenblock 0#64 32#64) (tableRead powers.pt 1), gmul block (tableRead powers.pt 2)].Perm
        (products (tableRead powers.pt) (blocksOf 0#64 32#64 [block])) :=
  ⟨ready_of_check (by decide) (by decide) (by decide) (by decide) (by decide)
    (by decide), by set_option maxRecDepth 20000 in decide⟩

/-- H of GCM test case 2. -/
def hashKey : Word128 := 0x66e94bd4ef8a2c3b884cfa59ca342b2e#128

/-- A statement for the indices 1 and 2. -/
theorem both {p : Nat → Prop} (h1 : p 1) (h2 : p 2) : ∀ i, 1 ≤ i → i ≤ blockCount 0#64 32#64 → p i := by
  intro i a b
  rw [show blockCount 0#64 32#64 = 2 by decide] at b
  obtain rfl | rfl : i = 1 ∨ i = 2 := by omega
  · exact h1
  · exact h2

/-- E_K(Y_0) of GCM test case 2. -/
def mask0 : Word128 := 0x58e2fccefa7e3061367f1d57a4e7455a#128

/-- The peer's state: shares 5 and 7 of H and H^2, and 9 of E_K(Y_0). -/
def peer : State := { powers with pt := [(1, 5#128), (2, 7#128)], ivs := 9#128, ivsV := true }

/-- The peer's TagShare: its PartialGHASH and its IV share. -/
def peerTag : Word128 := (outcome (execAll (ghashSeq 0#64 32#64 [block]) peer)).acc ^^^ peer.ivs

/-- The state of the party that verifies. -/
def party : State :=
  { powers with
    pt := [(1, hashKey ^^^ 5#128), (2, 0xa569901bb4b18906f5059d24465c904d#128 ^^^ 7#128)]
    ivs := mask0 ^^^ 9#128, ivsV := true, tags := peerTag, tagsV := true
    tag := 0xab6e47d42cec13bdf53a67b21257bddf#128, tagV := true }

theorem ready_peer : Ready 0#64 32#64 [block] peer :=
  ready_of_check (by decide) (by decide) (by decide) (by decide) (by decide)
    (by decide)

theorem ready_party : Ready 0#64 32#64 [block] party :=
  ready_of_check (by decide) (by decide) (by decide) (by decide) (by decide)
    (by decide)

theorem test_witness_PartialGhashesSumToGhash :
    (Ready 0#64 32#64 [block] powers ∧
      ∀ i, 1 ≤ i → i ≤ blockCount 0#64 32#64 → tableRead powers.pt i = hPower hashKey i) ∧
    (Ready 0#64 32#64 [block] party ∧ Ready 0#64 32#64 [block] peer ∧
      ∀ i, 1 ≤ i → i ≤ blockCount 0#64 32#64 → tableRead party.pt i ^^^ tableRead peer.pt i = hPower hashKey i) :=
  ⟨⟨test_witness_PartialGhashIsTheDirectSum.1, both (by decide) (by decide)⟩,
    ready_party, ready_peer, both (by decide) (by decide)⟩

/-- DONE with all loaded, equal and not equal; one operand missing; outside DONE. -/
theorem test_witness_VerifyComparesTheReconstructedTag :
    fresh.evalState ≠ .done ∧ (finished.evalState = .done ∧ finished.ivsV = false) ∧
    (complete.evalState = .done ∧ Loaded complete ∧ complete.acc ^^^ complete.ivs ^^^ complete.tags = complete.tag ∧
      complete.acc ^^^ complete.ivs ^^^ 1#128 ≠ complete.tag) := by
  refine ⟨by decide, by decide, by decide, ⟨rfl, rfl, rfl⟩, by decide, by decide⟩

theorem test_witness_HonestSharesPass :
    Ready 0#64 32#64 [block] party ∧ Loaded party ∧ Ready 0#64 32#64 [block] peer ∧
    (∀ i, 1 ≤ i → i ≤ blockCount 0#64 32#64 → tableRead party.pt i ^^^ tableRead peer.pt i = hPower hashKey i) ∧
    party.ivs ^^^ peer.ivs = mask0 ∧
    execAll (ghashSeq 0#64 32#64 [block]) peer = .next (outcome (execAll (ghashSeq 0#64 32#64 [block]) peer)) ∧
    party.tags = (outcome (execAll (ghashSeq 0#64 32#64 [block]) peer)).acc ^^^ peer.ivs ∧
    party.tag = ghashFrom hashKey 0#128 (blocksOf 0#64 32#64 [block]) ^^^ mask0 :=
  ⟨ready_party, ⟨rfl, rfl, rfl⟩, ready_peer, both (by decide) (by decide), by decide,
    next_of_some (by decide), by set_option maxRecDepth 20000 in decide, by set_option maxRecDepth 20000 in decide⟩

/-- The last clause of HonestSharesPass: another tag. -/
theorem test_witness_HonestSharesPass_fail :
    Ready 0#64 32#64 [block] { party with tag := 0#128 } ∧ Loaded { party with tag := 0#128 } ∧
      { party with tag := 0#128 }.tag ≠ ghashFrom hashKey 0#128 (blocksOf 0#64 32#64 [block]) ^^^ mask0 :=
  ⟨ready_of_check (by decide) (by decide) (by decide) (by decide) (by decide) (by decide), ⟨rfl, rfl, rfl⟩,
    by set_option maxRecDepth 20000 in decide⟩

theorem test_witness_AFlippedOperandBitFails :
    127 < 128 ∧ exec .verify complete = .next (gives .verify complete) ∧
      (gives .verify complete).rspPort = some ⟨.pass, 0#128⟩ :=
  ⟨by decide, exec_gives (by decide), by decide⟩

/-- V-F2 (a body of 4 bytes), with IVS and TAGS zero. -/
def shortBody : State :=
  { powers with ivsV := true, tagsV := true, tag := 0x2bb278af8ca1bef8dddb2f96d183ae2e#128, tagV := true }

/-- PT[2] = 0, and the tag of the length block alone (V-G10). -/
def zeroShare : State :=
  { shortBody with pt := [(1, hashKey)], tag := 0xa66e5c0a72a570d9692017ee375c24ba#128 }

/-- Bit 95 is a pad bit and bit 96 is none, with a share that is not zero; and a share that is zero. -/
theorem test_witness_AFlippedBlockBitFailsUnlessItsShareIsZero :
    (Ready 0#64 20#64 ([] ++ 0xdeadbeef000000000000000000000000#128 :: []) shortBody ∧ Loaded shortBody ∧
      rsp (execAll (verification 0#64 20#64 [0xdeadbeef000000000000000000000000#128]) shortBody) = some (0x01#8, 0#128) ∧
      95 < 128 - 8 * nbytes 0#64 20#64 2 1 ∧ ¬96 < 128 - 8 * nbytes 0#64 20#64 2 1 ∧
      tableRead shortBody.pt 2 ≠ 0#128) ∧
    (Ready 0#64 32#64 ([] ++ block :: []) zeroShare ∧ Loaded zeroShare ∧
      rsp (execAll (verification 0#64 32#64 [block]) zeroShare) = some (0x01#8, 0#128) ∧
      tableRead zeroShare.pt 2 = 0#128) :=
  ⟨⟨ready_of_check (by decide) (by decide) (by decide) (by decide) (by decide)
      (by decide), ⟨rfl, rfl, rfl⟩, by set_option maxRecDepth 20000 in decide, by decide, by decide, by decide⟩,
    ready_of_check (by decide) (by decide) (by decide) (by decide) (by decide)
      (by decide), ⟨rfl, rfl, rfl⟩, by set_option maxRecDepth 20000 in decide, by decide⟩

/-- A block that is not zero (j = m = 2), and one that is (a zero word as the first block). -/
theorem test_witness_AFlippedShareBitFailsUnlessItsBlockIsZero :
    (Ready 0#64 20#64 [0xdeadbeef000000000000000000000000#128] shortBody ∧ Loaded shortBody ∧ 2 ≤ blockCount 0#64 20#64 ∧
      rsp (execAll (verification 0#64 20#64 [0xdeadbeef000000000000000000000000#128]) shortBody) = some (0x01#8, 0#128) ∧
      (blocksOf 0#64 20#64 [0xdeadbeef000000000000000000000000#128])[blockCount 0#64 20#64 - 2]? ≠ some 0#128) ∧
    (Ready 0#64 32#64 [0#128] zeroShare ∧ Loaded zeroShare ∧
      rsp (execAll (verification 0#64 32#64 [0#128]) zeroShare) = some (0x01#8, 0#128) ∧
      (blocksOf 0#64 32#64 [0#128])[blockCount 0#64 32#64 - 2]? = some 0#128) :=
  ⟨⟨ready_of_check (by decide) (by decide) (by decide) (by decide) (by decide)
      (by decide), ⟨rfl, rfl, rfl⟩, by decide, by set_option maxRecDepth 20000 in decide, by decide⟩,
    ready_of_check (by decide) (by decide) (by decide) (by decide) (by decide)
      (by decide), ⟨rfl, rfl, rfl⟩, by set_option maxRecDepth 20000 in decide, by decide⟩

/-- Two states that differ in the unwritten entry 3 and in the unwritten IVS, TAGS and TAG. -/
theorem test_witness_UnwrittenContentsAreNeverObserved :
    Machine.Inv finished ∧
    Machine.Inv { finished with pt := finished.pt ++ [(3, 1#128)], ivs := 1#128, tags := 1#128, tag := 1#128 } ∧
    SameWritten finished { finished with pt := finished.pt ++ [(3, 1#128)], ivs := 1#128, tags := 1#128, tag := 1#128 } :=
  ⟨inv_finished, inv_of_check (by decide), rfl,
    fun i hi => by
      have h : i ∈ [1, 2] := (ptValid_iff finished i).1 hi
      obtain rfl | rfl : i = 1 ∨ i = 2 := by simpa using h
      · rfl
      · rfl,
    nofun, nofun, nofun⟩

theorem test_witness_SharesAndTagStayInside :
    Machine.Inv absorbed ∧ SamePublic absorbed { absorbed with pt := [(1, 1#128)], tag := 1#128, acc := 0#128 } ∧
      (Instr.finish ≠ .rdAcc ∧ Instr.finish ≠ .verify) :=
  ⟨inv_absorbed, rfl, by decide⟩

/-- As many values as there are entries. -/
theorem test_witness_LoadPtFillsTheTable :
    Machine.Inv fresh ∧ fresh.evalState ≠ .active ∧ (List.replicate 8 block).length ≤ fresh.depth :=
  ⟨inv_fresh, by decide, by decide⟩

theorem test_witness_EvaluationCycles :
    ([] : List Word128).length + 1 = blockCount 0#64 16#64 ∧ [block].length + 1 = blockCount 0#64 32#64 := by
  set_option maxRecDepth 20000 in decide

end Sys2Proof.Tests
end

section
/-! PT_DEPTH is constant: no meaning, no host move and no step changes it (R7, R31). -/

namespace Sys2Proof.Machine

theorem effect_depth (i : Instr) (s : State) : (effect i s).depth = s.depth := by
  cases i <;> rfl

@[simp] theorem success_depth (i : Instr) (s : State) : (success i s).depth = s.depth := effect_depth i s

theorem exec_keeps_depth {i : Instr} {s t : State} (h : exec i s = .next t) : t.depth = s.depth := by
  obtain ⟨-, e, rfl⟩ | ⟨-, rfl⟩ := exec_next_cases h
  · exact raise_depth e s
  · exact success_depth i s

theorem hostMove_keeps_depth {s t : State} (h : hostMove s = .next t) : t.depth = s.depth := by
  obtain ⟨-, e⟩ | ⟨c, rest, -, -, e⟩ | ⟨c, d, rest, -, -, e⟩ | ⟨rest, -, e⟩ | ⟨rest, -, e⟩ := hostMove_cases s <;>
    rw [e] at h <;> cases h <;> rfl

theorem step_keeps_depth {s t : State} (h : step s = .next t) : t.depth = s.depth := by
  obtain ⟨c, i, -, -, -, e⟩ | ⟨c, why, -, -, -, e⟩ | ⟨-, e⟩ := step_cases s <;> rw [e] at h
  · exact (exec_keeps_depth h :)
  · cases h
    exact raise_depth .illegal _
  · exact hostMove_keeps_depth h

/-- Settles O16: a step is a command, the abort of an illegal word or a host move, and each keeps PT_DEPTH. -/
theorem depthIsConstant : Obligations.DepthIsConstant :=
  fun _ _ => step_keeps_depth

end Sys2Proof.Machine
end

section
/-! The step of a state that accepts a command (R2, R46, R112). -/

namespace Sys2Proof.Machine

/-- The accepting branch of `step`, for a word that decodes. -/
theorem step_of_decoded {s : State} {c : Command} {i : Instr} (hc : s.cmdPort = some c) (hr : s.rspPort = none)
    (hd : decode c = .instr i) : step s = exec i { s with cmdPort := none } := by
  simp only [step, hc, hr, hd]

/-- Settles O6, by the accepting branch of `step`. -/
theorem stepRunsTheDecodedCommand : Obligations.StepRunsTheDecodedCommand :=
  fun _ _ _ => step_of_decoded

end Sys2Proof.Machine
end

section
/-! The cycles of a command sequence, added up command by command (R8, R117). -/

namespace Sys2Proof.Machine

@[simp] theorem opcodeField_formatN (op : BitVec 8) : opcodeField (formatN op) = op := append_high op 0#24

theorem lat_pos (op : BitVec 8) : 1 ≤ Config.lat op := Nat.le_add_left 1 (Config.latSeed op)

@[simp] theorem cyclesOf_nil : cyclesOf [] = 0 := rfl

@[simp] theorem cyclesOf_cons (i : Instr) (is : List Instr) :
    cyclesOf (i :: is) = Config.lat (opcodeField (encode i).word) + cyclesOf is := by
  simp [cyclesOf]

@[simp] theorem cyclesOf_append (is js : List Instr) : cyclesOf (is ++ js) = cyclesOf is + cyclesOf js := by
  simp [cyclesOf]

/-- One LAT(ABSORB) per word, whatever the words are. -/
theorem cyclesOf_absorbs (ws : List Word128) : cyclesOf (ws.map .absorb) = ws.length * Config.lat 0x21#8 := by
  induction ws with
  | nil => simp
  | cons w ws ih => simp [ih, encode, Nat.add_mul, Nat.add_comm]

theorem cyclesOf_ghashSeq (a c : Word64) (ws : List Word128) :
    cyclesOf (ghashSeq a c ws) =
      Config.lat 0x20#8 + ws.length * Config.lat 0x21#8 + Config.lat 0x22#8 := by
  simp [ghashSeq, cyclesOf_absorbs, encode, Nat.add_assoc]

/-- Settles O59: the evaluation has m - 1 ABSORBs, and each opcode's latency is at least 1 by R8. -/
theorem evaluationCycles : Obligations.EvaluationCycles := by
  intro a c ws hm
  have hlen : ws.length = blockCount a c - 1 := by omega
  exact ⟨hlen ▸ cyclesOf_ghashSeq a c ws, lat_pos⟩

end Sys2Proof.Machine
end

section
/-! The invariant of R32, operation by operation: reset, the abort of an error, the effect of each command that succeeds,
the host's moves; and with them every step and every run. -/

namespace Sys2Proof.Machine

theorem inv_resetWith {n : Nat} (h1 : 1 ≤ n) (h2 : n ≤ 65535) : Inv (State.resetWith n) where
  depth_pos := h1
  depth_le := h2
  pt_wf := tableWf_nil
  pt_keys := nofun
  ptv_rising := List.Pairwise.nil
  ptv_keys := nofun
  idle_clear := fun _ => ⟨rfl, rfl, rfl, rfl, rfl, rfl⟩
  active_run := nofun
  done_full := nofun
  lengths_count := fun h => absurd rfl h
  vv_done := nofun
  verdict_vv := fun _ => rfl
  verdict_current := nofun
  errcode_known := .inl rfl

/-- Config's PT_DEPTH is in R7's range, whichever number it is. -/
theorem ptDepth_bounds : 1 ≤ Config.ptDepth ∧ Config.ptDepth ≤ 65535 := by
  unfold Config.ptDepth
  omega

/-- Settles O12: every register of the reset state is clear, and PT_DEPTH is in R7's range. -/
theorem resetMeetsTheInvariant : Obligations.ResetMeetsTheInvariant :=
  ⟨fun _ => inv_resetWith, inv_resetWith ptDepth_bounds.1 ptDepth_bounds.2⟩

/-- A count that fits its register is stored without loss. -/
theorem toNat_ofNat16 {n : Nat} (h : n ≤ 65535) : (BitVec.ofNat 16 n).toNat = n := by
  rw [BitVec.toNat_ofNat]
  omega

namespace Inv

variable {s t : State}

/-- The ports and the host are no part of the invariant. -/
theorem of_ports (h : Inv s) (c : Option Command) (r : Option Response) (l : List HostMove) :
    Inv { s with cmdPort := c, rspPort := r, host := l } :=
  { h with }

theorem respond (h : Inv s) (code : RspCode) (d : Word128) : Inv (respond code d s) :=
  h.of_ports s.cmdPort (some ⟨code, d⟩) s.host

theorem resetNow (h : Inv s) : Inv (resetNow s) :=
  (inv_resetWith h.depth_pos h.depth_le).of_ports s.cmdPort none s.host

theorem clearRegisters (h : Inv s) : Inv (clearRegisters s) :=
  (inv_resetWith h.depth_pos h.depth_le).of_ports s.cmdPort s.rspPort s.host

theorem raise (h : Inv s) (e : ErrCode) : Inv (raise e s) :=
  { h with
    idle_clear := fun _ => ⟨rfl, rfl, rfl, rfl, rfl, rfl⟩
    active_run := nofun
    done_full := nofun
    lengths_count := fun hn => absurd rfl hn
    vv_done := nofun
    verdict_vv := fun _ => rfl
    verdict_current := nofun
    errcode_known := .inr ⟨e, rfl⟩ }

/-- CFG.NORM and the operands of VERIFY are free once the verdict is dropped (R28). -/
theorem of_dropped_verdict (h : Inv s)
    (e : t = { s with
      norm := t.norm, ivs := t.ivs, ivsV := t.ivsV, tags := t.tags, tagsV := t.tagsV, tag := t.tag, tagV := t.tagV
      vv := false, verdict := false }) : Inv t := by
  rw [e]
  exact { h with
    idle_clear := fun hi => by
      obtain ⟨hacc, hm, hk, ha, hc, -⟩ := h.idle_clear hi
      exact ⟨hacc, hm, hk, ha, hc, rfl⟩
    vv_done := nofun
    verdict_vv := fun _ => rfl
    verdict_current := nofun }

/-- Outside ACTIVE no entry needs to be valid. -/
theorem clearValid (h : Inv s) (hn : s.evalState ≠ .active) : Inv { s with ptv := [] } :=
  { h with
    ptv_rising := List.Pairwise.nil
    ptv_keys := nofun
    active_run := fun ha => absurd ha hn }

theorem writePt (h : Inv s) (hn : s.evalState ≠ .active) {i : Nat} (hi : 1 ≤ i ∧ i ≤ s.depth) (v : Word128) :
    Inv (writePt i v s) :=
  { h with
    pt_wf := tableWrite_wf s.pt i v h.pt_wf
    pt_keys := fun e he => by
      obtain he | ⟨rfl, -⟩ := mem_tableWrite s.pt i v e he
      · exact h.pt_keys e he
      · exact hi
    ptv_rising := insertIndex_rising s.ptv i h.ptv_rising
    ptv_keys := fun j hj => by
      obtain rfl | hj := (mem_insertIndex s.ptv i j).1 hj
      · exact hi
      · exact h.ptv_keys j hj
    active_run := fun ha => absurd ha hn }

theorem vv_false_of_active (h : Inv s) (ha : s.evalState = .active) : s.vv = false := by
  cases hv : s.vv with
  | false => rfl
  | true => simp [h.vv_done hv] at ha

/-- The registers of an evaluation: START sets them, with M the block count behind the lengths (R81). -/
theorem start (h : Inv s) {a c : Word64} (g : Guard (.start a c) s) : Inv (effect (.start a c) s) := by
  obtain ⟨-, hc, hd, hv⟩ := g
  have hm : (BitVec.ofNat 16 (blockCount a c)).toNat = blockCount a c := by
    have := h.depth_le
    exact toNat_ofNat16 (by omega)
  exact { h with
    idle_clear := nofun
    active_run := fun _ => by
      refine ⟨hm ▸ blockCount_pos a c, hm ▸ hd, hm ▸ blockCount_pos a c, fun j h1 hj => ?_⟩
      exact (allValid_iff s _).1 hv j h1 (hm ▸ hj)
    done_full := nofun
    lengths_count := fun _ => ⟨hc, hm⟩
    vv_done := nofun
    verdict_vv := fun _ => rfl
    verdict_current := nofun }

/-- K + 1 stays below M, so ABSORB never counts past the data blocks (R82). -/
theorem absorb (h : Inv s) {w : Word128} (g : Guard (.absorb w) s) : Inv (effect (.absorb w) s) := by
  obtain ⟨ha, hk, -⟩ := g
  obtain ⟨hm1, hmd, hkm, hval⟩ := h.active_run ha
  have hk' : (BitVec.ofNat 16 (s.k.toNat + 1)).toNat = s.k.toNat + 1 :=
    toNat_ofNat16 (by omega)
  exact { h with
    idle_clear := fun hi => absurd (ha.symm.trans hi) (by decide)
    active_run := fun _ => ⟨hm1, hmd, hk'.symm ▸ (by omega : s.k.toNat + 1 + 1 ≤ s.m.toNat), hval⟩
    done_full := fun hd => absurd (ha.symm.trans hd) (by decide)
    verdict_current := fun hv => absurd ((h.vv_false_of_active ha).symm.trans hv) (by decide) }

theorem finish (h : Inv s) (g : Guard .finish s) : Inv (effect .finish s) := by
  obtain ⟨ha, -, -⟩ := g
  obtain ⟨hm1, -, -, -⟩ := h.active_run ha
  exact { h with
    idle_clear := nofun
    active_run := nofun
    done_full := fun _ => ⟨rfl, hm1⟩
    lengths_count := fun _ => h.lengths_count (by simp [ha])
    vv_done := fun _ => rfl
    verdict_current := fun hv => absurd ((h.vv_false_of_active ha).symm.trans hv) (by decide) }

theorem verify (h : Inv s) (g : Guard .verify s) : Inv (effect .verify s) := by
  obtain ⟨hd, hi, hg, ha⟩ := g
  exact { h with
    idle_clear := fun hi => absurd (hd.symm.trans hi) (by decide)
    vv_done := fun _ => hd
    verdict_vv := nofun
    verdict_current := fun _ => ⟨hi, hg, ha, rfl⟩ }

theorem effect {i : Instr} (h : Inv s) (g : Guard i s) : Inv (effect i s) := by
  cases i with
  | nop => exact h
  | clr => exact h.clearRegisters
  | setCfg d => exact (h.clearValid g.1).of_dropped_verdict rfl
  | rdStatus => exact h
  | wrPt idx v => exact h.writePt g.1 g.2 (shareIn s v)
  | wrIvs v => exact h.of_dropped_verdict rfl
  | wrTags v => exact h.of_dropped_verdict rfl
  | wrTag v => exact h.of_dropped_verdict rfl
  | start a c => exact h.start g
  | absorb w => exact h.absorb g
  | finish => exact h.finish g
  | rdAcc => exact h
  | verify => exact h.verify g

theorem exec {i : Instr} (h : Inv s) (he : exec i s = .next t) : Inv t := by
  obtain ⟨-, e, rfl⟩ | ⟨g, rfl⟩ := exec_next_cases he
  · exact h.raise e
  · exact (h.effect g).respond _ _

theorem hostMove (h : Inv s) (he : hostMove s = .next t) : Inv t := by
  obtain ⟨-, e⟩ | ⟨c, rest, -, -, e⟩ | ⟨c, d, rest, -, -, e⟩ | ⟨rest, -, e⟩ | ⟨rest, -, e⟩ := hostMove_cases s <;>
    rw [e] at he <;> cases he
  · exact h
  · exact h.of_ports _ _ _
  · exact h.of_ports _ _ _
  · exact (h.of_ports s.cmdPort s.rspPort rest).resetNow

theorem step (h : Inv s) (he : step s = .next t) : Inv t := by
  have h0 : Inv { s with cmdPort := none } := h.of_ports none s.rspPort s.host
  obtain ⟨c, i, -, -, -, e⟩ | ⟨c, why, -, -, -, e⟩ | ⟨-, e⟩ := step_cases s <;> rw [e] at he
  · exact h0.exec he
  · cases he
    exact h0.raise .illegal
  · exact h.hostMove he

end Inv

/-- Settles O13: a step is a command, the abort of an illegal word or a host move, and each keeps the invariant. -/
theorem stepKeepsTheInvariant : Obligations.StepKeepsTheInvariant :=
  fun _ _ => Inv.step

/-- A run that reaches a state begins with a step that has one. -/
theorem run_succ_next {M : Host.Core} {n : Nat} {s t : M.State} (h : M.run (n + 1) s = .next t) :
    ∃ s', M.step s = .next s' ∧ M.run n s' = .next t := by
  rw [Host.Core.run] at h
  split at h
  next s' he => exact ⟨s', he, h⟩
  next => cases h
  next => cases h

/-- What every step keeps, a run keeps. -/
theorem run_keeps {M : Host.Core} {P : M.State → Prop} (hstep : ∀ s t, P s → M.step s = .next t → P t) {n : Nat}
    {s t : M.State} (hs : P s) (h : M.run n s = .next t) : P t := by
  induction n generalizing s with
  | zero => cases h; exact hs
  | succ n ih =>
    obtain ⟨s', he, h⟩ := run_succ_next h
    exact ih (hstep s s' hs he) h

/-- Every state of a run from reset meets the invariant, with PT_DEPTH as it was at reset. -/
theorem inv_of_run_from_reset {depth n : Nat} {moves : List HostMove} {t : State} (h1 : 1 ≤ depth) (h2 : depth ≤ 65535)
    (h : core.run n { State.resetWith depth with host := moves } = .next t) : Inv t ∧ t.depth = depth :=
  run_keeps (M := core) (P := fun s => Inv s ∧ s.depth = depth)
    (fun _ _ hs he => ⟨hs.1.step he, (step_keeps_depth he).trans hs.2⟩)
    ⟨(inv_resetWith h1 h2).of_ports none none moves, rfl⟩ h

/-- Settles O14: R32 is part of the invariant, which holds after reset and which every step keeps. -/
theorem reachableStatesSatisfyR32 : Obligations.ReachableStatesSatisfyR32 := by
  intro depth moves n t h1 h2 h
  obtain ⟨hi, rfl⟩ := inv_of_run_from_reset h1 h2 h
  refine ⟨hi.idle_clear, fun ha => ?_, hi.done_full, hi.vv_done, hi.verdict_vv⟩
  obtain ⟨hm1, hmd, hkm, hval⟩ := hi.active_run ha
  exact ⟨hm1, hmd, by omega, hval⟩

end Sys2Proof.Machine
end

section
/-! PT_N is the longest run of valid entries from 1 on, so START's check of the table is a comparison with it (R21, R81). -/

namespace Sys2Proof.Machine

theorem ptN_le_depth (s : State) : ptN s ≤ s.depth := by
  cases hn : ptN s with
  | zero => exact Nat.zero_le _
  | succ n => exact (validRun_valid s s.ptv.length 0 (n + 1) n.succ_pos (Nat.le_of_eq hn.symm)).2

theorem ptValid_of_le_ptN {s : State} {j : Nat} (h1 : 1 ≤ j) (hj : j ≤ ptN s) : ptValid s j = true :=
  (validRun_valid s s.ptv.length 0 j h1 hj).1

/-- A run goes at least as far as the entries are valid and the fuel lasts. -/
theorem le_validRun {s : State} {n : Nat} (hd : n ≤ s.depth) (hv : ∀ j, 1 ≤ j → j ≤ n → ptValid s j = true)
    (fuel k : Nat) (hf : n ≤ k + fuel) : n ≤ validRun s fuel k := by
  induction fuel generalizing k with
  | zero => exact hf
  | succ fuel ih =>
    by_cases hk : n ≤ k
    · exact Nat.le_trans hk (validRun_ge s (fuel + 1) k)
    · have he : entryExists s (k + 1) = true := (entryExists_iff s _).2 (by omega)
      have hp : ptValid s (k + 1) = true := hv _ (by omega) (by omega)
      simpa [validRun, he, hp] using ih (k + 1) (by omega)

/-- A run of valid entries is no longer than the list of valid indices, which holds each of its indices. -/
theorem le_length_ptv {s : State} {n : Nat} (hv : ∀ j, 1 ≤ j → j ≤ n → ptValid s j = true) : n ≤ s.ptv.length := by
  have hsub : List.range' 1 n ⊆ s.ptv := by
    intro j hj
    rw [List.mem_range'_1] at hj
    exact (ptValid_iff s j).1 (hv j hj.1 (by omega))
  simpa using ((List.nodup_range' (s := 1) (n := n)).subperm hsub).length_le

theorem le_ptN {s : State} {n : Nat} (hd : n ≤ s.depth) (hv : ∀ j, 1 ≤ j → j ≤ n → ptValid s j = true) : n ≤ ptN s :=
  le_validRun hd hv s.ptv.length 0 (by simpa using le_length_ptv hv)

/-- Settles O28: a run passes valid entries only, and its fuel, the number of valid indices, lasts to its end. -/
theorem ptNIsTheLongestValidRun : Obligations.PtNIsTheLongestValidRun :=
  fun s => ⟨ptN_le_depth s, fun _ => ptValid_of_le_ptN, fun _ => le_ptN⟩

/-- The two ways START finds too few shares (R81) are one comparison. -/
theorem ptN_lt_iff (s : State) (n : Nat) : ptN s < n ↔ s.depth < n ∨ allValid s n = false := by
  constructor
  · intro h
    by_contra hc
    rw [not_or, Nat.not_lt, Bool.not_eq_false, allValid_iff] at hc
    exact absurd (le_ptN hc.1 hc.2) (Nat.not_le.2 h)
  · rintro (h | h)
    · exact Nat.lt_of_le_of_lt (ptN_le_depth s) h
    · by_contra hn
      have hall : allValid s n = true :=
        (allValid_iff s n).2 fun j h1 hj => ptValid_of_le_ptN h1 (Nat.le_trans hj (Nat.not_lt.1 hn))
      simp [hall] at h

/-- Settles O45: outside ACTIVE and with C ≥ 16, the check of the table is the only one left, and it compares m with PT_N. -/
theorem startNeedsMEntriesWithoutAGap : Obligations.StartNeedsMEntriesWithoutAGap := by
  intro s a c hn hc
  rw [← blockCount_eq a c hc, ptN_lt_iff]
  obtain ⟨h, -⟩ | ⟨-, h, -⟩ | ⟨-, -, h, e⟩ | ⟨-, -, hd, hv, e⟩ := execStart_cases a c s
  · exact absurd h hn
  · omega
  · exact iff_of_true ⟨_, _, e, rfl⟩ h
  · refine iff_of_false ?_ (by simp [hd, hv])
    rintro ⟨t, d, he, hr⟩
    cases e.symm.trans he
    simp at hr

end Sys2Proof.Machine
end

section
/-! A command's outcome is decided by its first failing check alone (R96): its error, or the success under its guard. The
only premise is the part of R32 that keeps an evaluation's entries in the table, and with it no command faults. -/

namespace Sys2Proof.Machine

/-- The entries a running evaluation still needs are entries of the table (R32). -/
def RunInTable (s : State) : Prop := s.evalState = .active → s.k.toNat + 1 ≤ s.m.toNat ∧ s.m.toNat ≤ s.depth

theorem Inv.runInTable {s : State} (h : Inv s) : RunInTable s := fun ha =>
  have ⟨_, hmd, hkm, _⟩ := h.active_run ha
  ⟨hkm, hmd⟩

/-- The first failing check is the command's error, and its guard holds when none fails (R96). -/
def ChecksDecide (i : Instr) (s : State) : Prop :=
  (∃ e, firstError i s = some e ∧ exec i s = .next (raise e s)) ∨ (firstError i s = none ∧ Guard i s)

section
variable {i : Instr} {s : State}

theorem checksDecide_of_not_accepted (h : acceptedIn i s.evalState = false)
    (he : exec i s = .next (raise .sequence s)) : ChecksDecide i s :=
  .inl ⟨.sequence, by simp [firstError, h], he⟩

theorem checksDecide_of_failed {e : ErrCode} (h : acceptedIn i s.evalState = true)
    (hf : (ownChecks i s).find? (fun c => c.1) = some (true, e)) (he : exec i s = .next (raise e s)) : ChecksDecide i s :=
  .inl ⟨e, by simp [firstError, h, hf], he⟩

theorem checksDecide_of_guard (h : acceptedIn i s.evalState = true)
    (hf : (ownChecks i s).find? (fun c => c.1) = none) (g : Guard i s) : ChecksDecide i s :=
  .inr ⟨by simp [firstError, h, hf], g⟩

end

/-- SET_CFG's reserved bits are clear exactly if nothing is left of the operand without bit 0 (R91). -/
theorem reserved_clear_iff (d : Word128) : d.extractLsb' 1 127 = 0#127 ↔ d.toNat / 2 = 0 := by
  have := d.isLt
  rw [← BitVec.toNat_inj, BitVec.extractLsb'_toNat, Nat.shiftRight_eq_div_pow, BitVec.toNat_ofNat]
  omega

theorem setCfg_checksDecide (d : Word128) (s : State) : ChecksDecide (.setCfg d) s := by
  obtain ⟨h, e⟩ | ⟨h, hd, e⟩ | ⟨h, hd, -⟩ := execSetCfg_cases d s
  · exact checksDecide_of_not_accepted (by simp [acceptedIn, h]) e
  · rw [Ne, reserved_clear_iff] at hd
    exact checksDecide_of_failed (decide_eq_true h) (by simp [ownChecks, hd]) e
  · exact checksDecide_of_guard (decide_eq_true h) (by simp [ownChecks, (reserved_clear_iff d).1 hd]) ⟨h, hd⟩

theorem wrPt_checksDecide (idx : Nat) (v : Word128) (s : State) : ChecksDecide (.wrPt idx v) s := by
  obtain ⟨h, e⟩ | ⟨h, hd, e⟩ | ⟨h, hd, -⟩ := execWrPt_cases idx v s
  · exact checksDecide_of_not_accepted (by simp [acceptedIn, h]) e
  · have hb : idx = 0 ∨ s.depth < idx := by omega
    exact checksDecide_of_failed (decide_eq_true h) (by simp [ownChecks, hb]) e
  · have hb : ¬(idx = 0 ∨ s.depth < idx) := by omega
    exact checksDecide_of_guard (decide_eq_true h) (by simp [ownChecks, hb]) ⟨h, hd⟩

theorem start_checksDecide (a c : Word64) (s : State) : ChecksDecide (.start a c) s := by
  obtain ⟨h, e⟩ | ⟨h, hc, e⟩ | ⟨h, hc, hv, e⟩ | ⟨h, hc, hd, hv, -⟩ := execStart_cases a c s
  · exact checksDecide_of_not_accepted (by simp [acceptedIn, h]) e
  · exact checksDecide_of_failed (decide_eq_true h) (by simp [ownChecks, hc]) e
  · have hm := blockCount_eq a c hc ▸ (ptN_lt_iff s _).2 hv
    exact checksDecide_of_failed (decide_eq_true h) (by simp [ownChecks, hc, hm]) e
  · have hm : ¬ptN s < blockCount a c := by simp [ptN_lt_iff, hd, hv]
    rw [blockCount_eq a c hc] at hm
    exact checksDecide_of_guard (decide_eq_true h) (by simp [ownChecks, hc, hm]) ⟨h, hc, hd, hv⟩

theorem absorb_checksDecide (w : Word128) {s : State} (hr : RunInTable s) : ChecksDecide (.absorb w) s := by
  obtain ⟨h, e⟩ | ⟨h, hk, e⟩ | ⟨h, hk, hd, -⟩ | ⟨h, hk, hd, -⟩ := execAbsorb_cases w s
  · exact checksDecide_of_not_accepted (decide_eq_false h) e
  · exact checksDecide_of_failed (decide_eq_true h) (by simp [ownChecks, hk]) e
  · have := hr h
    omega
  · exact checksDecide_of_guard (decide_eq_true h) (by simp [ownChecks, hk]) ⟨h, hk, hd⟩

theorem finish_checksDecide {s : State} (hr : RunInTable s) : ChecksDecide .finish s := by
  obtain ⟨h, e⟩ | ⟨h, hk, e⟩ | ⟨h, hk, hd, -⟩ | ⟨h, hk, hd, -⟩ := execFinish_cases s
  · exact checksDecide_of_not_accepted (decide_eq_false h) e
  · exact checksDecide_of_failed (decide_eq_true h) (by simp [ownChecks, hk]) e
  · have := hr h
    omega
  · exact checksDecide_of_guard (decide_eq_true h) (by simp [ownChecks, hk]) ⟨h, hk, hd⟩

theorem verify_checksDecide (s : State) : ChecksDecide .verify s := by
  have hmissing : (s.ivsV = false ∨ s.tagsV = false ∨ s.tagV = false) ↔
      ¬(s.ivsV = true ∧ s.tagsV = true ∧ s.tagV = true) := by
    simp only [← Bool.not_eq_true]
    tauto
  obtain ⟨h, e⟩ | ⟨h, hl, e⟩ | ⟨h, hl, -⟩ | ⟨h, hl, -⟩ := execVerify_cases s
  · exact checksDecide_of_not_accepted (decide_eq_false h) e
  · exact checksDecide_of_failed (decide_eq_true h) (by simp [ownChecks, hmissing.2 hl]) e
  · exact checksDecide_of_guard (decide_eq_true h) (by simp [ownChecks, hl]) ⟨h, hl⟩
  · exact checksDecide_of_guard (decide_eq_true h) (by simp [ownChecks, hl]) ⟨h, hl⟩

/-- NOP, CLR and RD_STATUS have no check; the other three writes and RD_ACC have the state check alone (R95). -/
theorem checksDecide (i : Instr) {s : State} (hr : RunInTable s) : ChecksDecide i s := by
  cases i with
  | nop => exact checksDecide_of_guard rfl rfl trivial
  | clr => exact checksDecide_of_guard rfl rfl trivial
  | setCfg d => exact setCfg_checksDecide d s
  | rdStatus => exact checksDecide_of_guard rfl rfl trivial
  | wrPt idx v => exact wrPt_checksDecide idx v s
  | wrIvs v =>
    obtain ⟨h, e⟩ | ⟨h, -⟩ := execWrIvs_cases v s
    · exact checksDecide_of_not_accepted (by simp [acceptedIn, h]) e
    · exact checksDecide_of_guard (decide_eq_true h) rfl h
  | wrTags v =>
    obtain ⟨h, e⟩ | ⟨h, -⟩ := execWrTags_cases v s
    · exact checksDecide_of_not_accepted (by simp [acceptedIn, h]) e
    · exact checksDecide_of_guard (decide_eq_true h) rfl h
  | wrTag v =>
    obtain ⟨h, e⟩ | ⟨h, -⟩ := execWrTag_cases v s
    · exact checksDecide_of_not_accepted (by simp [acceptedIn, h]) e
    · exact checksDecide_of_guard (decide_eq_true h) rfl h
  | start a c => exact start_checksDecide a c s
  | absorb w => exact absorb_checksDecide w hr
  | finish => exact finish_checksDecide hr
  | rdAcc =>
    obtain ⟨h, e⟩ | ⟨h, -⟩ := execRdAcc_cases s
    · exact checksDecide_of_not_accepted (decide_eq_false h) e
    · exact checksDecide_of_guard (decide_eq_true h) rfl h
  | verify => exact verify_checksDecide s

theorem exec_has_next (i : Instr) {s : State} (hr : RunInTable s) : ∃ t, exec i s = .next t := by
  obtain ⟨e, -, he⟩ | ⟨-, g⟩ := checksDecide i hr
  · exact ⟨_, he⟩
  · exact ⟨_, exec_of_guard g⟩

/-- Settles O15: no command faults under the invariant, and the host's only move without a next state is to present a
command over a waiting one. -/
theorem noFaultUnderTheInvariant : Obligations.NoFaultUnderTheInvariant := by
  intro s h
  obtain ⟨c, i, -, -, -, e⟩ | ⟨c, why, -, -, -, e⟩ | ⟨-, e⟩ := step_cases s <;> rw [e]
  · exact .inl (exec_has_next i h.runInTable)
  · exact .inl ⟨_, rfl⟩
  · obtain ⟨-, e⟩ | ⟨c, rest, -, -, e⟩ | ⟨c, d, rest, hh, hc, e⟩ | ⟨rest, -, e⟩ | ⟨rest, -, e⟩ := hostMove_cases s
    · exact .inl ⟨_, e⟩
    · exact .inl ⟨_, e⟩
    · exact .inr ⟨e, c, rest, hh, by simp [hc]⟩
    · exact .inl ⟨_, e⟩
    · exact .inl ⟨_, e⟩

end Sys2Proof.Machine
end

section
/-! What is never observed: the checks, the answers and the effects of two states that agree on the public registers, or on
all that has been written (R20, R33, R92). -/

namespace Sys2Proof.Machine

variable {s t : State} {i : Instr}

/-! ### States that differ in the shares, the tag and the running sum -/

theorem SamePublic.as_update (h : SamePublic s t) :
    ∃ p a b c x, t = { s with pt := p, ivs := a, tags := b, tag := c, acc := x } :=
  ⟨t.pt, t.ivs, t.tags, t.tag, t.acc, h⟩

theorem SamePublic.ptN_eq (h : SamePublic s t) : ptN t = ptN s := by
  obtain ⟨p, a, b, c, x, rfl⟩ := h.as_update
  exact ptN_congr rfl rfl

theorem SamePublic.statusView_eq (h : SamePublic s t) : statusView t = statusView s := by
  rw [statusView, statusView, h.ptN_eq]
  obtain ⟨p, a, b, c, x, rfl⟩ := h.as_update
  rfl

theorem SamePublic.ownChecks_eq (h : SamePublic s t) (i : Instr) : ownChecks i t = ownChecks i s := by
  have hn := h.ptN_eq
  obtain ⟨p, a, b, c, x, rfl⟩ := h.as_update
  cases i with
  | start a c => rw [ownChecks, ownChecks, hn]
  | _ => rfl

theorem SamePublic.firstError_eq (h : SamePublic s t) (i : Instr) : firstError i t = firstError i s := by
  have ho := h.ownChecks_eq i
  obtain ⟨p, a, b, c, x, rfl⟩ := h.as_update
  rw [firstError, firstError, ho]

theorem SamePublic.runInTable (h : SamePublic s t) (hs : RunInTable s) : RunInTable t := by
  obtain ⟨p, a, b, c, x, rfl⟩ := h.as_update
  exact hs

/-- The two states raise the same error, or both succeed: the checks read public registers alone. -/
theorem SamePublic.exec_both (h : SamePublic s t) (hs : RunInTable s) (i : Instr) :
    (∃ e, exec i s = .next (raise e s) ∧ exec i t = .next (raise e t)) ∨
    (Guard i s ∧ exec i s = .next (success i s) ∧ exec i t = .next (success i t)) := by
  have hf := h.firstError_eq i
  obtain ⟨e, hfs, hes⟩ | ⟨hfs, gs⟩ := checksDecide i hs <;>
    obtain ⟨e', hft, het⟩ | ⟨hft, gt⟩ := checksDecide i (h.runInTable hs) <;> rw [hfs, hft] at hf
  · cases hf
    exact .inl ⟨e, hes, het⟩
  · cases hf
  · cases hf
  · exact .inr ⟨gs, exec_of_guard gs, exec_of_guard gt⟩

theorem SamePublic.respond (h : SamePublic s t) (code : RspCode) (d : Word128) :
    SamePublic (respond code d s) (respond code d t) := by
  obtain ⟨p, a, b, c, x, rfl⟩ := h.as_update
  rfl

theorem SamePublic.raise (h : SamePublic s t) (e : ErrCode) : SamePublic (raise e s) (raise e t) := by
  obtain ⟨p, a, b, c, x, rfl⟩ := h.as_update
  rfl

/-- VERIFY alone brings a secret into a public register: the verdict. -/
theorem SamePublic.effect (h : SamePublic s t) (hv : i ≠ .verify) : SamePublic (effect i s) (effect i t) := by
  obtain ⟨p, a, b, c, x, rfl⟩ := h.as_update
  cases i with
  | verify => exact absurd rfl hv
  | _ => rfl

theorem SamePublic.reply_eq (h : SamePublic s t) (hr : i ≠ .rdAcc) (hv : i ≠ .verify) : reply i t = reply i s := by
  cases i with
  | rdStatus => rw [reply, reply, h.statusView_eq]
  | rdAcc => exact absurd rfl hr
  | verify => exact absurd rfl hv
  | _ => rfl

/-- Settles O57: the checks are public, and so are the answers but those of RD_ACC and VERIFY. -/
theorem sharesAndTagStayInside : Obligations.SharesAndTagStayInside := by
  intro i s t hs h hr hv
  obtain ⟨e, hes, het⟩ | ⟨-, hes, het⟩ := h.exec_both hs.runInTable i
  · exact ⟨_, _, hes, het, rfl, h.raise e⟩
  · refine ⟨_, _, hes, het, congrArg some (h.reply_eq hr hv).symm, ?_⟩
    rw [success, success, h.reply_eq hr hv]
    exact (h.effect hv).respond _ _

/-! ### States that differ in what was never written -/

theorem SameWritten.as_update (h : SameWritten s t) :
    ∃ p a b c, t = { s with pt := p, ivs := a, tags := b, tag := c } :=
  ⟨t.pt, t.ivs, t.tags, t.tag, h.rest⟩

theorem SameWritten.samePublic (h : SameWritten s t) : SamePublic s t := by
  obtain ⟨p, a, b, c, rfl⟩ := h.as_update
  rfl

theorem SameWritten.acc_eq (h : SameWritten s t) : t.acc = s.acc := by rw [h.rest]

theorem SameWritten.respond (h : SameWritten s t) (code : RspCode) (d : Word128) :
    SameWritten (respond code d s) (respond code d t) := by
  obtain ⟨p, a, b, c, rfl⟩ := h.as_update
  exact ⟨rfl, h.pt_valid, h.ivs_valid, h.tags_valid, h.tag_valid⟩

theorem SameWritten.raise (h : SameWritten s t) (e : ErrCode) : SameWritten (raise e s) (raise e t) := by
  obtain ⟨p, a, b, c, rfl⟩ := h.as_update
  exact ⟨rfl, h.pt_valid, h.ivs_valid, h.tags_valid, h.tag_valid⟩

/-- A loaded VERIFY reads written registers alone. -/
theorem SameWritten.verify_alike (h : SameWritten s t) (hl : s.ivsV = true ∧ s.tagsV = true ∧ s.tagV = true) :
    recon t = recon s ∧ t.tag = s.tag := by
  obtain ⟨hi, hg, ha⟩ := hl
  exact ⟨by rw [recon, recon, h.acc_eq, h.ivs_valid hi, h.tags_valid hg], h.tag_valid ha⟩

/-- The entries a running evaluation still needs are valid (R32). -/
theorem SameWritten.tableRead_eq (h : SameWritten s t) (hs : Inv s) (ha : s.evalState = .active) {j : Nat} (h1 : 1 ≤ j)
    (hj : j ≤ s.m.toNat) : tableRead t.pt j = tableRead s.pt j := by
  obtain ⟨-, -, -, hval⟩ := hs.active_run ha
  exact h.pt_valid j (hval j h1 hj)

theorem SameWritten.writePt (h : SameWritten s t) (hs : Table.wf s.pt) (ht : Table.wf t.pt) (i : Nat) (v : Word128) :
    SameWritten (writePt i v s) (writePt i v t) := by
  have hpt : ∀ j, ptValid (Machine.writePt i v s) j = true →
      tableRead (tableWrite t.pt i v) j = tableRead (tableWrite s.pt i v) j := by
    intro j hj
    by_cases hij : i = j
    · subst hij
      rw [tableRead_tableWrite_same _ _ _ hs, tableRead_tableWrite_same _ _ _ ht]
    · obtain rfl | hv := (ptValid_writePt i j v s).1 hj
      · exact absurd rfl hij
      · rw [tableRead_tableWrite_other _ _ _ _ hij, tableRead_tableWrite_other _ _ _ _ hij, h.pt_valid j hv]
  obtain ⟨p, a, b, c, rfl⟩ := h.as_update
  exact ⟨rfl, hpt, h.ivs_valid, h.tags_valid, h.tag_valid⟩

theorem SameWritten.absorb (h : SameWritten s t) (hs : Inv s) {w : Word128} (g : Guard (.absorb w) s) :
    SameWritten (effect (.absorb w) s) (effect (.absorb w) t) := by
  obtain ⟨ha, -, h1, -⟩ := g
  have hread := h.tableRead_eq hs ha h1 (Nat.sub_le _ _)
  obtain ⟨p, a, b, c, rfl⟩ := h.as_update
  exact ⟨by simp only [effect, hread]; rfl, h.pt_valid, h.ivs_valid, h.tags_valid, h.tag_valid⟩

theorem SameWritten.finish (h : SameWritten s t) (hs : Inv s) (g : Guard .finish s) :
    SameWritten (effect .finish s) (effect .finish t) := by
  obtain ⟨ha, hk, -⟩ := g
  have hread := h.tableRead_eq hs ha (Nat.le_refl 1) (hk ▸ Nat.le_add_left 1 _)
  obtain ⟨p, a, b, c, rfl⟩ := h.as_update
  exact ⟨by simp only [effect, hread], h.pt_valid, h.ivs_valid, h.tags_valid, h.tag_valid⟩

theorem SameWritten.verify (h : SameWritten s t) (g : Guard .verify s) :
    SameWritten (effect .verify s) (effect .verify t) := by
  obtain ⟨hr, ht⟩ := h.verify_alike g.2
  have hd : decide (recon t = t.tag) = decide (recon s = s.tag) := by rw [hr, ht]
  obtain ⟨p, a, b, c, rfl⟩ := h.as_update
  exact ⟨by simp only [effect, hd], h.pt_valid, h.ivs_valid, h.tags_valid, h.tag_valid⟩

theorem SameWritten.effect (h : SameWritten s t) (hs : Inv s) (ht : Inv t) (g : Guard i s) :
    SameWritten (effect i s) (effect i t) := by
  cases i with
  | wrPt idx v =>
    have hv : shareIn t v = shareIn s v := shareIn_congr (by rw [h.rest]) v
    simpa only [Machine.effect, hv] using h.writePt hs.pt_wf ht.pt_wf idx (shareIn s v)
  | absorb w => exact h.absorb hs g
  | finish => exact h.finish hs g
  | verify => exact h.verify g
  | nop => exact h
  | rdStatus => exact h
  | rdAcc => exact h
  | clr =>
    obtain ⟨p, a, b, c, rfl⟩ := h.as_update
    exact ⟨rfl, fun _ _ => rfl, fun _ => rfl, fun _ => rfl, fun _ => rfl⟩
  | setCfg d =>
    obtain ⟨p, a, b, c, rfl⟩ := h.as_update
    exact ⟨rfl, nofun, nofun, h.tags_valid, h.tag_valid⟩
  | wrIvs v =>
    obtain ⟨p, a, b, c, rfl⟩ := h.as_update
    exact ⟨rfl, h.pt_valid, fun _ => rfl, h.tags_valid, h.tag_valid⟩
  | wrTags v =>
    obtain ⟨p, a, b, c, rfl⟩ := h.as_update
    exact ⟨rfl, h.pt_valid, h.ivs_valid, fun _ => rfl, h.tag_valid⟩
  | wrTag v =>
    obtain ⟨p, a, b, c, rfl⟩ := h.as_update
    exact ⟨rfl, h.pt_valid, h.ivs_valid, h.tags_valid, fun _ => rfl⟩
  | start a c =>
    obtain ⟨p, a, b, c, rfl⟩ := h.as_update
    exact ⟨rfl, h.pt_valid, h.ivs_valid, h.tags_valid, h.tag_valid⟩

theorem SameWritten.reply_eq (h : SameWritten s t) (g : Guard i s) : reply i t = reply i s := by
  cases i with
  | rdAcc => rw [reply, reply, h.acc_eq]
  | verify =>
    obtain ⟨hr, ht⟩ := h.verify_alike g.2
    rw [reply, reply, hr, ht]
  | _ => exact h.samePublic.reply_eq nofun nofun

/-- Settles O56: a command that succeeds reads valid entries and loaded operands alone, and what it newly marks valid it
has just written. -/
theorem unwrittenContentsAreNeverObserved : Obligations.UnwrittenContentsAreNeverObserved := by
  intro i s t hs ht h
  obtain ⟨e, hes, het⟩ | ⟨g, hes, het⟩ := h.samePublic.exec_both hs.runInTable i
  · exact ⟨_, _, hes, het, rfl, h.raise e⟩
  · refine ⟨_, _, hes, het, congrArg some (h.reply_eq g).symm, ?_⟩
    rw [success, success, h.reply_eq g]
    exact (h.effect hs ht g).respond _ _

end Sys2Proof.Machine
end

section
/-! While a response waits, only the host moves (R46, R112). -/

namespace Sys2Proof.Machine

theorem step_of_response_waiting {s : State} {r : Response} (hr : s.rspPort = some r) : step s = hostMove s := by
  obtain ⟨c, i, -, hn, -, -⟩ | ⟨c, why, -, hn, -, -⟩ | ⟨-, e⟩ := step_cases s
  · cases hr.symm.trans hn
  · cases hr.symm.trans hn
  · exact e

/-- Settles O10: while a response waits a step is the host's move, and only a reset among these touches a register. -/
theorem noCommandWhileAResponseWaits : Obligations.NoCommandWhileAResponseWaits := by
  intro s t r hr he hnr
  rw [step_of_response_waiting hr] at he
  obtain ⟨-, e⟩ | ⟨c, rest, -, hc, e⟩ | ⟨c, d, rest, -, -, e⟩ | ⟨rest, -, e⟩ | ⟨rest, hh, e⟩ := hostMove_cases s
  · cases e.symm.trans he
    exact ⟨rfl, fun _ => rfl, .inl hr⟩
  · cases e.symm.trans he
    exact ⟨rfl, fun hne => absurd hc hne, .inl hr⟩
  · cases e.symm.trans he
  · cases e.symm.trans he
    exact ⟨rfl, fun _ => rfl, .inr rfl⟩
  · exact absurd hh (hnr rest)

end Sys2Proof.Machine
end

section
/-! ERRCODE: written by an error, by CLR and by reset, and by nothing else (R29). -/

namespace Sys2Proof.Machine

variable {i : Instr} {s t : State}

theorem errcode_effect (h : i ≠ .clr) : (effect i s).errcode = s.errcode := by
  cases i with
  | clr => exact absurd rfl h
  | _ => rfl

theorem success_answers_no_error (i : Instr) (s : State) (e : ErrCode) (d : Word128) :
    (success i s).rspPort ≠ some ⟨.err e, d⟩ :=
  fun h => reply_no_error i s e (congrArg Response.code (Option.some.inj h))

/-- ERRCODE after a command, beside the command's response. -/
theorem exec_errcode (h : exec i s = .next t) :
    (∃ e, t.rspPort = some ⟨.err e, 0#128⟩ ∧ t.errcode = errByte e ∧ i ≠ .clr) ∨
    ((∀ e d, t.rspPort ≠ some ⟨.err e, d⟩) ∧ i = .clr ∧ t.errcode = 0#8) ∨
    ((∀ e d, t.rspPort ≠ some ⟨.err e, d⟩) ∧ i ≠ .clr ∧ t.errcode = s.errcode) := by
  obtain ⟨hg, e, rfl⟩ | ⟨-, rfl⟩ := exec_next_cases h
  · exact .inl ⟨e, rfl, rfl, fun hi => hg (hi ▸ trivial)⟩
  · by_cases hi : i = .clr
    · subst hi
      exact .inr (.inl ⟨success_answers_no_error _ s, rfl, rfl⟩)
    · exact .inr (.inr ⟨success_answers_no_error i s, hi, errcode_effect hi⟩)

theorem hostMove_errcode (h : hostMove s = .next t) :
    t.errcode = s.errcode ∨ ∃ rest, s.host = .reset :: rest ∧ t.errcode = 0#8 := by
  obtain ⟨-, e⟩ | ⟨c, rest, -, -, e⟩ | ⟨c, d, rest, -, -, e⟩ | ⟨rest, -, e⟩ | ⟨rest, hh, e⟩ := hostMove_cases s <;>
    cases e.symm.trans h
  · exact .inl rfl
  · exact .inl rfl
  · exact .inl rfl
  · exact .inr ⟨rest, hh, rfl⟩

theorem step_errcode (h : step s = .next t) :
    t.errcode = s.errcode ∨
    (∃ e, t.rspPort = some ⟨.err e, 0#128⟩ ∧ t.errcode = rspByte (.err e)) ∨
    (∃ c, s.cmdPort = some c ∧ decode c = .instr .clr ∧ t.errcode = 0#8) ∨
    (∃ rest, s.host = .reset :: rest ∧ t.errcode = 0#8) := by
  obtain ⟨c, i, hc, -, hd, e⟩ | ⟨c, why, -, -, -, e⟩ | ⟨-, e⟩ := step_cases s
  · obtain ⟨x, hr, hx, -⟩ | ⟨-, rfl, h0⟩ | ⟨-, -, hk⟩ := exec_errcode (e.symm.trans h)
    · exact .inr (.inl ⟨x, hr, hx⟩)
    · exact .inr (.inr (.inl ⟨c, hc, hd, h0⟩))
    · exact .inl hk
  · cases e.symm.trans h
    exact .inr (.inl ⟨.illegal, rfl, rfl⟩)
  · obtain hk | hreset := hostMove_errcode (e.symm.trans h)
    · exact .inl hk
    · exact .inr (.inr (.inr hreset))

/-- Settles O20: ERRCODE is the raised code, 0 after CLR and reset, and otherwise what it was. -/
theorem errcodeIsTheLastError : Obligations.ErrcodeIsTheLastError := by
  refine ⟨rfl, fun i s t code d h hr => ?_, fun _ _ => step_errcode⟩
  obtain ⟨e, hx, he, hi⟩ | ⟨hx, hi, h0⟩ | ⟨hx, hi, hk⟩ := exec_errcode h
  · cases hr.symm.trans hx
    exact ⟨fun _ => he, fun hc => absurd hc hi, fun hne => absurd rfl (hne e)⟩
  · exact ⟨fun ⟨e, he⟩ => absurd (he ▸ hr) (hx e d), fun _ => h0, fun _ hne => absurd hi hne⟩
  · exact ⟨fun ⟨e, he⟩ => absurd (he ▸ hr) (hx e d), fun hc => absurd hc hi, fun _ _ => hk⟩

end Sys2Proof.Machine
end

section
/-! The valid bits and the verdict, command by command (R21 to R24, R28). -/

namespace Sys2Proof.Machine

variable {i : Instr} {s t : State}

theorem ptValid_effect (i : Instr) (s : State) (j : Nat) : ptValid (effect i s) j = true ↔
    (∃ v, i = .wrPt j v) ∨ (ptValid s j = true ∧ i ≠ .clr ∧ ¬∃ d, i = .setCfg d) := by
  cases i with
  | wrPt idx v =>
    rw [effect, ptValid_writePt, eq_comm (a := j)]
    simp
  | _ => simp [effect, ptValid]

theorem ivsV_effect (i : Instr) (s : State) : (effect i s).ivsV = true ↔
    (∃ v, i = .wrIvs v) ∨ (s.ivsV = true ∧ i ≠ .clr ∧ ¬∃ d, i = .setCfg d) := by
  cases i <;> simp [effect]

theorem tagsV_effect (i : Instr) (s : State) : (effect i s).tagsV = true ↔
    (∃ v, i = .wrTags v) ∨ (s.tagsV = true ∧ i ≠ .clr) := by
  cases i <;> simp [effect]

theorem tagV_effect (i : Instr) (s : State) : (effect i s).tagV = true ↔
    (∃ v, i = .wrTag v) ∨ (s.tagV = true ∧ i ≠ .clr) := by
  cases i <;> simp [effect]

theorem reply_code_ok (h : i ≠ .verify) (s : State) : (reply i s).code = .ok := by
  cases i with
  | verify => exact absurd rfl h
  | _ => rfl

/-- For a command other than VERIFY, that it succeeded is that it answered OK. -/
theorem and_reply_ok_iff {P : Prop} (h : P → i ≠ .verify) (s : State) : P ∧ (reply i s).code = .ok ↔ P :=
  and_iff_left_of_imp fun hp => reply_code_ok (h hp) s

/-- Settles O29: an error keeps every valid bit, and a success has the command's effect on them. -/
theorem validBitsFollowTheWrites : Obligations.ValidBitsFollowTheWrites := by
  intro i s t r h hr
  obtain ⟨hg, e, rfl⟩ | ⟨-, rfl⟩ := exec_next_cases h <;> cases hr
  · have hi : i ≠ .clr := fun hi => hg (hi ▸ trivial)
    simp [hi, ptValid]
  · have hset : (∃ d, i = .setCfg d) ∧ (reply i s).code = .ok ↔ ∃ d, i = .setCfg d :=
      and_reply_ok_iff (by rintro ⟨d, rfl⟩; nofun) s
    refine ⟨fun j => ?_, ?_, ?_, ?_⟩
    · rw [and_reply_ok_iff (by rintro ⟨v, rfl⟩; nofun) s, hset]
      exact ptValid_effect i s j
    · rw [and_reply_ok_iff (by rintro ⟨v, rfl⟩; nofun) s, hset]
      exact ivsV_effect i s
    · rw [and_reply_ok_iff (by rintro ⟨v, rfl⟩; nofun) s]
      exact tagsV_effect i s
    · rw [and_reply_ok_iff (by rintro ⟨v, rfl⟩; nofun) s]
      exact tagV_effect i s

/-- A success that leaves VV at 1 is VERIFY's, or it found it at 1 and touched neither the verdict nor an operand of
VERIFY: ABSORB and FINISH run in ACTIVE only, where VV is 0 (R32). -/
theorem effect_keeps_verdict (hs : Inv s) (g : Guard i s) (hi : i ≠ .verify) (hv : (effect i s).vv = true) :
    s.vv = true ∧ (effect i s).verdict = s.verdict ∧ (effect i s).acc = s.acc ∧ (effect i s).ivs = s.ivs ∧
      (effect i s).tags = s.tags ∧ (effect i s).tag = s.tag := by
  cases i with
  | verify => exact absurd rfl hi
  | absorb w => exact absurd ((hs.vv_false_of_active g.1).symm.trans hv) nofun
  | finish => exact absurd ((hs.vv_false_of_active g.1).symm.trans hv) nofun
  | nop => exact ⟨hv, rfl, rfl, rfl, rfl, rfl⟩
  | rdStatus => exact ⟨hv, rfl, rfl, rfl, rfl, rfl⟩
  | rdAcc => exact ⟨hv, rfl, rfl, rfl, rfl, rfl⟩
  | wrPt idx v => exact ⟨hv, rfl, rfl, rfl, rfl, rfl⟩
  | clr => exact nomatch hv
  | setCfg d => exact nomatch hv
  | wrIvs v => exact nomatch hv
  | wrTags v => exact nomatch hv
  | wrTag v => exact nomatch hv
  | start a c => exact nomatch hv

/-- Settles O30: an error drops the verdict, and a success keeps it only with its operands. -/
theorem aValidVerdictIsCurrent : Obligations.AValidVerdictIsCurrent := by
  intro i s t hs hi h hv
  obtain ⟨-, e, rfl⟩ | ⟨g, rfl⟩ := exec_next_cases h
  · exact nomatch hv
  · exact effect_keeps_verdict hs g hi hv

end Sys2Proof.Machine
end

section
/-! The fields of STATUS, read back from its number (R31). -/

namespace Sys2Proof.Machine

/-- A field of a word as a number. -/
theorem extractLsb'_toNat_div (w : Word128) (lo n : Nat) : (w.extractLsb' lo n).toNat = w.toNat / 2 ^ lo % 2 ^ n := by
  rw [BitVec.extractLsb'_toNat, Nat.shiftRight_eq_div_pow]

/-- A bit of a word as a number. -/
theorem getLsbD_eq_iff (w : Word128) (i : Nat) (b : Bool) : w.getLsbD i = b ↔ w.toNat / 2 ^ i % 2 = b.toNat := by
  rw [BitVec.getLsbD, Nat.testBit_eq_decide_div_mod_eq]
  cases b with
  | true => simp
  | false => simp

theorem statusView_state (s : State) : (statusView s).extractLsb' 0 2 = stateBits s.evalState := by
  have := (stateBits s.evalState).isLt
  rw [← BitVec.toNat_inj, extractLsb'_toNat_div, statusView_toNat]
  omega

/-- The view after reset: no field but PT_DEPTH and NORM is set. -/
theorem statusView_resetWith {n : Nat} (h : n ≤ 65535) : (statusView (State.resetWith n)).toNat = n * 2 ^ 64 + 4 := by
  have hn : n % 2 ^ 16 = n := by omega
  rw [statusView_toNat, show ptN (State.resetWith n) = 0 from rfl]
  simp only [State.resetWith, stateBits, hn, Bool.toNat_false, Bool.toNat_true, BitVec.toNat_ofNat]
  omega

/-- Settles O27: each field is the view's number divided by the weight of its lowest bit, cut to the field's width, where
the fields below it add up to less than that weight. -/
theorem statusFieldsAreWhereR31SaysTheyAre : Obligations.StatusFieldsAreWhereR31SaysTheyAre := by
  refine ⟨fun s => ⟨?_, ?_⟩, fun n _ h => statusView_resetWith h⟩
  · rw [statusView_state]
    cases s.evalState <;> rfl
  · have := (stateBits s.evalState).isLt
    have := s.norm.toNat_lt
    have := s.ivsV.toNat_lt
    have := s.tagsV.toNat_lt
    have := s.tagV.toNat_lt
    have := s.vv.toNat_lt
    have := s.verdict.toNat_lt
    have := s.errcode.isLt
    have := s.m.isLt
    have := s.k.isLt
    simp only [← BitVec.toNat_inj, getLsbD_eq_iff, extractLsb'_toNat_div, statusView_toNat, BitVec.toNat_ofNat]
    omega

end Sys2Proof.Machine
end

section
/-! A complying host's commands, served one after another: each is presented, accepted and answered, and its response
taken, in three steps (R46, R51, R112). -/

namespace Sys2Proof.Machine

variable {s t : State} {c : Command}

theorem effect_cmdPort (i : Instr) (s : State) : (effect i s).cmdPort = s.cmdPort := by
  cases i <;> rfl

theorem effect_host (i : Instr) (s : State) : (effect i s).host = s.host := by
  cases i <;> rfl

/-- A command answers, and touches neither the command port nor the host's list. -/
theorem exec_ports {i : Instr} (h : exec i s = .next t) :
    t.cmdPort = s.cmdPort ∧ t.host = s.host ∧ ∃ r, t.rspPort = some r := by
  obtain ⟨-, e, rfl⟩ | ⟨-, rfl⟩ := exec_next_cases h
  · exact ⟨rfl, rfl, _, rfl⟩
  · exact ⟨effect_cmdPort i s, effect_host i s, _, rfl⟩

/-- With an idle command port the step is the host's move. -/
theorem step_of_idle (hc : s.cmdPort = none) : step s = hostMove s := by
  simp only [step, hc]

theorem step_present {rest : List HostMove} (hc : s.cmdPort = none) (hh : s.host = .present c :: rest) :
    step s = .next { s with cmdPort := some c, host := rest } := by
  rw [step_of_idle hc]
  simp only [hostMove, hh, hc]

theorem step_take {rest : List HostMove} (hc : s.cmdPort = none) (hh : s.host = .take :: rest) :
    step s = .next { s with rspPort := none, host := rest } := by
  rw [step_of_idle hc]
  simp only [hostMove, hh]

theorem transaction_of_idle (hc : s.cmdPort = none) : transaction s = none := by
  simp only [transaction, hc]

theorem transaction_accept {r : Response} (hc : s.cmdPort = some c) (hr : s.rspPort = none) (h : step s = .next t)
    (ht : t.rspPort = some r) : transaction s = some (c, r) := by
  simp [transaction, hc, hr, h, answer, ht]

/-- Under the invariant a presented command is accepted and answered in one step, also when its word is illegal. -/
theorem step_accept (hs : Inv s) (hc : s.cmdPort = some c) (hr : s.rspPort = none) :
    ∃ t r, step s = .next t ∧ t.cmdPort = none ∧ t.host = s.host ∧ transaction s = some (c, r) := by
  obtain ⟨-, i, -, -, -, e⟩ | ⟨-, why, -, -, -, e⟩ | ⟨hn, -⟩ := step_cases s
  · obtain ⟨t, ht⟩ := exec_has_next i (hs.of_ports none s.rspPort s.host).runInTable
    obtain ⟨hcmd, hhost, r, hrsp⟩ := exec_ports ht
    exact ⟨t, r, e.trans ht, hcmd, hhost, transaction_accept hc hr (e.trans ht) hrsp⟩
  · exact ⟨_, _, e, rfl, rfl, transaction_accept hc hr e rfl⟩
  · simp [hc, hr] at hn

theorem run_of_step (h : step s = .next t) (n : Nat) : core.run (n + 1) s = core.run n t := by
  have hcore : core.step s = .next t := h
  simp only [Host.Core.run, hcore]

theorem history_of_step (h : step s = .next t) (n : Nat) :
    history (n + 1) s = (transaction s).toList ++ history n t := by
  rw [history, h]

/-- One command is served: three steps bring the ports back to idle, and the history gains this command with its one
response. -/
theorem serve_one {rest : List HostMove} (hs : Inv s) (hc : s.cmdPort = none) (hr : s.rspPort = none)
    (hh : s.host = .present c :: .take :: rest) :
    ∃ t r, Inv t ∧ t.cmdPort = none ∧ t.rspPort = none ∧ t.host = rest ∧
      ∀ n, core.run (n + 3) s = core.run n t ∧ history (n + 3) s = (c, r) :: history n t := by
  have hpresent := step_present hc hh
  have hinv := hs.step hpresent
  obtain ⟨u, r, haccept, hcu, hhu, hanswer⟩ := step_accept hinv rfl hr
  have htake := step_take hcu hhu
  refine ⟨_, r, (hinv.step haccept).step htake, hcu, rfl, rfl, fun n => ⟨?_, ?_⟩⟩
  · rw [run_of_step hpresent, run_of_step haccept, run_of_step htake]
  · rw [history_of_step hpresent, history_of_step haccept, history_of_step htake, transaction_of_idle hc,
      hanswer, transaction_of_idle hcu]
    rfl

/-- Settles O11, by induction on the commands: three steps serve the first and leave a state that serves the others. -/
theorem commandsAreServedInOrder : Obligations.CommandsAreServedInOrder := by
  intro cs
  induction cs with
  | nil => exact fun s rest _ hc hr hh => ⟨s, rfl, hh, hc, hr, rfl⟩
  | cons c cs ih =>
    intro s rest hs hc hr hh
    obtain ⟨u, r, hu, hcu, hru, hhu, hserve⟩ := serve_one hs hc hr hh
    obtain ⟨t, hrun, hht, hct, hrt, hhist⟩ := ih u rest hu hcu hru hhu
    obtain ⟨hrun3, hhist3⟩ := hserve (3 * cs.length)
    refine ⟨t, hrun3.trans hrun, hht, hct, hrt, ?_⟩
    rw [List.length_cons, Nat.mul_succ, hhist3, List.map_cons, hhist]

end Sys2Proof.Machine
end

section
/-! Commands issued twice: a write, SET_CFG or VERIFY finds its guard and its effect again, and a read has no effect
(R43, R86). -/

namespace Sys2Proof.Machine

variable {i : Instr} {s t : State} {r : Response}

/-- A response that is no error is the response of a success. -/
theorem success_of_no_error (h : exec i s = .next t) (hr : t.rspPort = some r) (hne : ∀ e, r.code ≠ .err e) :
    Guard i s ∧ t = success i s := by
  obtain ⟨-, e, rfl⟩ | hsuccess := exec_next_cases h
  · cases hr
    exact absurd rfl (hne e)
  · exact hsuccess

/-- A success whose guard holds again and which settles the state at once is the same when it is run again. -/
theorem exec_success_again (g : Guard i (success i s)) (h : success i (success i s) = success i s) :
    exec i (success i s) = .next (success i s) :=
  (exec_of_guard g).trans (congrArg _ h)

/-- The second write of a share stores the same share at the same index of the canonical table. -/
theorem success_wrPt_twice (idx : Nat) (v : Word128) (h : Table.wf s.pt) :
    success (.wrPt idx v) (success (.wrPt idx v) s) = success (.wrPt idx v) s := by
  have hshare : shareIn (success (.wrPt idx v) s) v = shareIn s v := shareIn_congr rfl v
  rw [success, effect, hshare]
  simp only [success, effect, respond, writePt, tableWrite_tableWrite s.pt idx (shareIn s v) h, insertIndex_insertIndex]
  rfl

/-- A read that succeeds has no effect but its response, so it answers the same again. -/
theorem exec_read_again (hi : i = .rdStatus ∨ i = .rdAcc) (g : Guard i s) :
    success i s = { s with rspPort := (success i s).rspPort } ∧ exec i (success i s) = .next (success i s) := by
  obtain rfl | rfl := hi
  · refine ⟨rfl, exec_success_again trivial ?_⟩
    simp only [success, effect, reply, statusView_respond]
    rfl
  · exact ⟨rfl, exec_success_again g rfl⟩

/-- Settles O38: each of these commands leaves its own guard and its own effect standing. -/
theorem repeatedCommandsChangeNothing : Obligations.RepeatedCommandsChangeNothing := by
  intro i s t r hs h hr hne
  obtain ⟨g, rfl⟩ := success_of_no_error h hr hne
  refine ⟨?_, fun hi => exec_read_again hi g⟩
  rintro (⟨idx, v, rfl⟩ | ⟨v, rfl⟩ | ⟨v, rfl⟩ | ⟨v, rfl⟩ | ⟨d, rfl⟩ | rfl)
  · exact exec_success_again g (success_wrPt_twice idx v hs.pt_wf)
  · exact exec_success_again g rfl
  · exact exec_success_again g rfl
  · exact exec_success_again g rfl
  · exact exec_success_again g rfl
  · exact exec_success_again g rfl

end Sys2Proof.Machine
end

section
/-! The word of a byte string, bit by bit (R38), and what the byte mask leaves of it (R78). -/

namespace Sys2Proof.Machine

/-- The number of the first `n` bytes, byte 0 most significant: bit i lies in byte n - 1 - i / 8. -/
theorem testBit_foldl_bytes (bs : List Byte) {n i : Nat} (h : i < 8 * n) :
    ((List.range n).foldl (fun a j => 256 * a + (bs.getD j 0#8).toNat) 0).testBit i =
      (bs.getD (n - 1 - i / 8) 0#8).getLsbD (i % 8) := by
  induction n generalizing i with
  | zero => omega
  | succ n ih =>
    have hlast (a : Nat) : (256 * a + (bs.getD n 0#8).toNat).testBit i =
        if i < 8 then (bs.getD n 0#8).getLsbD i else a.testBit (i - 8) :=
      Nat.testBit_two_pow_mul_add a (bs.getD n 0#8).isLt i
    rw [List.range_succ, List.foldl_append, List.foldl_cons, List.foldl_nil, hlast]
    split
    next hi => rw [Nat.div_eq_of_lt hi, Nat.mod_eq_of_lt hi, Nat.add_sub_cancel, Nat.sub_zero]
    next hi =>
      rw [ih (by omega), show n - 1 - (i - 8) / 8 = n + 1 - 1 - i / 8 by omega, show (i - 8) % 8 = i % 8 by omega]

/-- Bit i of the word lies in byte 15 - i / 8 of the string, which is 0 from the string's end on. -/
theorem wordOfBytes_bit (bs : List Byte) {i : Nat} (h : i < 128) :
    (wordOfBytes bs).getLsbD i = (bs.getD (15 - i / 8) 0#8).getLsbD (i % 8) := by
  rw [wordOfBytes, BitVec.getLsbD_ofNat, testBit_foldl_bytes bs h]
  simp [h]

/-- Settles O43, bit by bit: the mask keeps the bits of the given bytes, and where it clears, the shorter string has no
byte. -/
theorem anyPadBytesGiveTheZeroPaddedBlock : Obligations.AnyPadBytesGiveTheZeroPaddedBlock := by
  intro bytes pad hlen
  apply BitVec.eq_of_getLsbD_eq
  intro i hi
  rw [BitVec.getLsbD_and, wordOfBytes_bit _ hi, wordOfBytes_bit _ hi, maskw_bit _ i hi]
  by_cases hj : 15 - i / 8 < bytes.length
  · rw [List.getD_append _ _ _ _ hj, decide_eq_true (by omega), Bool.and_true]
  · rw [List.getD_eq_default bytes _ (Nat.not_lt.1 hj), decide_eq_false (by omega), Bool.and_false,
      BitVec.getLsbD_zero]

end Sys2Proof.Machine
end

section
/-! The opcode map, row by row: which words a row selects, and that a selecting row is what decoding gives (R54, R55). -/

namespace Sys2Proof

variable {r : Row} {c : Command} {i : Instr} {w : CmdWord}

theorem rowSelects_iff (r : Row) (w : CmdWord) : rowSelects r w = true ↔ w &&& r.mask = r.pattern :=
  beq_iff_eq

/-- Two rows differ in a bit that both of them fix. -/
theorem patterns_differ_under_masks : ∀ i j : Fin opcodeTable.length,
    opcodeTable[i].pattern &&& opcodeTable[j].mask = opcodeTable[j].pattern &&& opcodeTable[i].mask → i = j := by
  decide

/-- A word selected by two rows agrees with both patterns on the bits that both rows fix. -/
theorem row_index_unique {i j : Fin opcodeTable.length} (hi : rowSelects opcodeTable[i] w = true)
    (hj : rowSelects opcodeTable[j] w = true) : i = j := by
  rw [rowSelects_iff] at hi hj
  apply patterns_differ_under_masks i j
  rw [← hi, ← hj, BitVec.and_assoc, BitVec.and_assoc, BitVec.and_comm opcodeTable[i].mask]

theorem row_unique {q : Row} (hr : r ∈ opcodeTable) (hq : q ∈ opcodeTable) (hrw : rowSelects r w = true)
    (hqw : rowSelects q w = true) : r = q := by
  obtain ⟨i, hi, rfl⟩ := List.mem_iff_getElem.1 hr
  obtain ⟨j, hj, rfl⟩ := List.mem_iff_getElem.1 hq
  have hij : (⟨i, hi⟩ : Fin opcodeTable.length) = ⟨j, hj⟩ := row_index_unique hrw hqw
  cases hij
  rfl

/-- What decoding can answer: a row selects the word and is applied, or none does. -/
theorem decode_cases (c : Command) :
    (∃ r ∈ opcodeTable, rowSelects r c.word = true ∧ decode c = .instr (r.build c)) ∨
    ((∀ r ∈ opcodeTable, rowSelects r c.word = false) ∧ decode c = .illegal (illegalReason c.word)) := by
  unfold decode
  cases hf : opcodeTable.find? (fun r => rowSelects r c.word) with
  | some r => exact .inl ⟨r, List.mem_of_find?_eq_some hf, (List.find?_eq_some_iff_append.1 hf).1, rfl⟩
  | none => exact .inr ⟨fun r hr => Bool.eq_false_iff.2 (List.find?_eq_none.1 hf r hr), rfl⟩

theorem decode_of_rowSelects (hr : r ∈ opcodeTable) (h : rowSelects r c.word = true) : decode c = .instr (r.build c) := by
  obtain ⟨q, hq, hs, e⟩ | ⟨hn, -⟩ := decode_cases c
  · rw [e, row_unique hr hq h hs]
  · exact absurd h (Bool.eq_false_iff.1 (hn r hr))

theorem decode_of_no_row (h : ∀ r ∈ opcodeTable, rowSelects r c.word = false) :
    decode c = .illegal (illegalReason c.word) := by
  obtain ⟨q, hq, hs, -⟩ | ⟨-, e⟩ := decode_cases c
  · exact absurd hs (Bool.eq_false_iff.1 (h q hq))
  · exact e

theorem decode_eq_instr_iff :
    decode c = .instr i ↔ ∃ r ∈ opcodeTable, rowSelects r c.word = true ∧ r.build c = i := by
  constructor
  · intro h
    obtain ⟨r, hr, hs, e⟩ | ⟨-, e⟩ := decode_cases c <;> cases e.symm.trans h
    exact ⟨r, hr, hs, rfl⟩
  · rintro ⟨r, hr, hs, rfl⟩
    exact decode_of_rowSelects hr hs

/-- The same for a row given by its place in the opcode map. -/
theorem decode_of_row (j : Nat) (hj : opcodeTable[j]? = some r) (h : rowSelects r w = true) (d : Word128) :
    decode ⟨w, d⟩ = .instr (r.build ⟨w, d⟩) :=
  decode_of_rowSelects (List.mem_of_getElem? hj) h

/-- Whether a command decodes is decided by its word alone. -/
theorem decodes_iff (c : Command) :
    (∃ i, decode c = .instr i) ↔ ∃ r ∈ opcodeTable, rowSelects r c.word = true := by
  constructor
  · rintro ⟨i, h⟩
    obtain ⟨r, hr, hs, -⟩ := decode_eq_instr_iff.1 h
    exact ⟨r, hr, hs⟩
  · rintro ⟨r, hr, hs⟩
    exact ⟨_, decode_of_rowSelects hr hs⟩

/-- The encoded word of a well-formed instruction is selected by the instruction's own row. -/
theorem encodedByARow (i : Instr) : Laws.EncodedByARow.Statement i := by
  cases i with
  | nop => exact Laws.EncodedByARow.nop
  | clr => exact Laws.EncodedByARow.clr
  | setCfg data => exact Laws.EncodedByARow.setCfg data
  | rdStatus => exact Laws.EncodedByARow.rdStatus
  | wrPt idx v => exact Laws.EncodedByARow.wrPt idx v
  | wrIvs v => exact Laws.EncodedByARow.wrIvs v
  | wrTags v => exact Laws.EncodedByARow.wrTags v
  | wrTag v => exact Laws.EncodedByARow.wrTag v
  | start a c => exact Laws.EncodedByARow.start a c
  | absorb w => exact Laws.EncodedByARow.absorb w
  | finish => exact Laws.EncodedByARow.finish
  | rdAcc => exact Laws.EncodedByARow.rdAcc
  | verify => exact Laws.EncodedByARow.verify

/-- Settles O1: the instruction's own row selects the encoded word, and no other row does. -/
theorem decodeOfEncode : Obligations.DecodeOfEncode := fun i hw =>
  decode_eq_instr_iff.2 (encodedByARow i hw)

end Sys2Proof
end

section
/-! The words of the opcode map: what a row selects is a word of its format, and encodes what it builds (R52 to R59). -/

namespace Sys2Proof

variable {r : Row} {w : CmdWord}

/-- A row that fixes every bit of the word selects its pattern alone. -/
theorem rowSelects_full_iff (hm : r.mask = 0xFFFFFFFF#32) : rowSelects r w = true ↔ w = r.pattern := by
  rw [rowSelects_iff, hm, show 0xFFFFFFFF#32 = BitVec.allOnes 32 from rfl, BitVec.and_allOnes]

/-- A row that fixes bits 31:16 selects the words of format X with its opcode, whatever their index (R53). -/
theorem eq_formatX_of_rowSelects {op : BitVec 8} (hm : r.mask = 0xFFFF0000#32) (hp : r.pattern = (op ++ 0#8) ++ 0#16)
    (h : rowSelects r w = true) : w = formatX op (idxField w) := by
  have hhigh : w.extractLsb' 16 16 = op ++ 0#8 := by
    rw [rowSelects_iff, hm, hp] at h
    have hx := congrArg (BitVec.extractLsb' 16 16) h
    rwa [BitVec.extractLsb'_and, append_high, show BitVec.extractLsb' 16 16 0xFFFF0000#32 = BitVec.allOnes 16 from rfl,
      BitVec.and_allOnes] at hx
  calc w = w.extractLsb' 16 16 ++ w.extractLsb' 0 16 := (BitVec.extractLsb'_append_extractLsb' (w := 16) (len := 16)).symm
    _ = formatX op (idxField w) := by rw [hhigh, formatX, idxField, BitVec.ofNat_toNat, BitVec.setWidth_eq]

/-- The two halves of START's operand make it up (R56). -/
theorem aadField_append_ctField (d : Word128) : aadField d ++ ctField d = d :=
  BitVec.extractLsb'_append_extractLsb' (w := 64) (len := 64)

/-- What the row builds from a command it selects is well formed and encodes back to that command, up to an ignored data
operand (R57). -/
def Row.Encodes (r : Row) : Prop :=
  ∀ c : Command, rowSelects r c.word = true →
    (r.build c).wf = true ∧ (encode (r.build c)).word = c.word ∧
      (takesData (r.build c) = true → (encode (r.build c)).data = c.data)

/-- A row that fixes every bit has one word to encode, its pattern. -/
theorem encodes_of_full (hm : r.mask = 0xFFFFFFFF#32)
    (h : ∀ c, (r.build c).wf = true ∧ (encode (r.build c)).word = r.pattern ∧
      (takesData (r.build c) = true → (encode (r.build c)).data = c.data)) : r.Encodes := fun c hs => by
  rw [(rowSelects_full_iff hm).1 hs]
  exact h c

theorem encodes_wrPt : loadRows[0].Encodes := by
  intro c h
  have hw : c.word = formatX 0x10#8 (idxField c.word) := eq_formatX_of_rowSelects rfl rfl h
  refine ⟨?_, hw.symm, fun _ => rfl⟩
  exact decide_eq_true (BitVec.isLt (c.word.extractLsb' 0 16))

/-- Row by row, in the order of the opcode map. -/
theorem encodes_of_mem_opcodeTable : ∀ r ∈ opcodeTable, r.Encodes := by
  simp only [opcodeTable, controlRows, loadRows, ghashRows, List.forall_mem_append, List.forall_mem_cons,
    List.not_mem_nil, false_imp_iff, implies_true, and_true]
  exact ⟨⟨⟨
      encodes_of_full rfl fun _ => ⟨rfl, rfl, nofun⟩,
      encodes_of_full rfl fun _ => ⟨rfl, rfl, nofun⟩,
      encodes_of_full rfl fun _ => ⟨rfl, rfl, fun _ => rfl⟩,
      encodes_of_full rfl fun _ => ⟨rfl, rfl, nofun⟩⟩,
      encodes_wrPt,
      encodes_of_full rfl fun _ => ⟨rfl, rfl, fun _ => rfl⟩,
      encodes_of_full rfl fun _ => ⟨rfl, rfl, fun _ => rfl⟩,
      encodes_of_full rfl fun _ => ⟨rfl, rfl, fun _ => rfl⟩⟩,
      encodes_of_full rfl fun c => ⟨rfl, rfl, fun _ => aadField_append_ctField c.data⟩,
      encodes_of_full rfl fun _ => ⟨rfl, rfl, fun _ => rfl⟩,
      encodes_of_full rfl fun _ => ⟨rfl, rfl, nofun⟩,
      encodes_of_full rfl fun _ => ⟨rfl, rfl, nofun⟩,
      encodes_of_full rfl fun _ => ⟨rfl, rfl, nofun⟩⟩

/-- Settles O2: the row that selects the command encodes what it builds. -/
theorem encodeOfDecode : Obligations.EncodeOfDecode := by
  intro c i h
  obtain ⟨r, hr, hs, rfl⟩ := decode_eq_instr_iff.1 h
  exact encodes_of_mem_opcodeTable r hr c hs

/-! ### Illegal words -/

/-- The opcodes of the rows in format N (R54). -/
def formatNOpcodes : List (BitVec 8) :=
  [0x00#8, 0x01#8, 0x02#8, 0x03#8, 0x11#8, 0x12#8, 0x13#8, 0x20#8, 0x21#8, 0x22#8, 0x23#8, 0x30#8]

/-- Each row is in format N, or it is WR_PT's. -/
theorem row_format : ∀ r ∈ opcodeTable,
    (r.mask = 0xFFFFFFFF#32 ∧ ∃ op ∈ formatNOpcodes, r.pattern = formatN op) ∨
    (r.mask = 0xFFFF0000#32 ∧ r.pattern = (0x10#8 ++ 0#8) ++ 0#16) := by
  decide

theorem word_of_rowSelects (hr : r ∈ opcodeTable) (h : rowSelects r w = true) :
    (∃ op ∈ formatNOpcodes, w = formatN op) ∨ ∃ idx, w = formatX 0x10#8 idx := by
  obtain ⟨hm, op, hop, hp⟩ | ⟨hm, hp⟩ := row_format r hr
  · exact .inl ⟨op, hop, ((rowSelects_full_iff hm).1 h).trans hp⟩
  · exact .inr ⟨idxField w, eq_formatX_of_rowSelects hm hp h⟩

theorem formatN_toNat (op : BitVec 8) : (formatN op).toNat = op.toNat * 2 ^ 24 := by
  rw [formatN, Machine.toNat_append_add, BitVec.toNat_ofNat, Nat.zero_mod, Nat.add_zero]

theorem formatX_toNat (op : BitVec 8) (idx : Nat) : (formatX op idx).toNat = op.toNat * 2 ^ 24 + idx % 2 ^ 16 := by
  rw [formatX, Machine.toNat_append_add, Machine.toNat_append_add, BitVec.toNat_ofNat, BitVec.toNat_ofNat]
  omega

theorem formatNOpcodes_toNat : ∀ op ∈ formatNOpcodes,
    op.toNat < 4 ∨ (0x11 ≤ op.toNat ∧ op.toNat < 0x14) ∨ (0x20 ≤ op.toNat ∧ op.toNat < 0x24) ∨ op.toNat = 0x30 := by
  decide

/-- The words R59 lists: a reserved opcode, or a nonzero reserved bit of the format (R52, R53). -/
def Reserved (w : CmdWord) : Prop :=
  let op := w.toNat / 2 ^ 24
  (4 ≤ op ∧ op ≤ 0x0F) ∨ (0x14 ≤ op ∧ op ≤ 0x1F) ∨ (0x24 ≤ op ∧ op ≤ 0x2F) ∨ 0x31 ≤ op ∨
    (op ≠ 0x10 ∧ w.toNat % 2 ^ 24 ≠ 0) ∨ (op = 0x10 ∧ w.toNat / 2 ^ 16 % 2 ^ 8 ≠ 0)

theorem no_row_of_reserved (h : Reserved w) : ∀ r ∈ opcodeTable, rowSelects r w = false := by
  intro r hr
  rw [Bool.eq_false_iff]
  intro hs
  unfold Reserved at h
  obtain ⟨op, hop, rfl⟩ | ⟨idx, rfl⟩ := word_of_rowSelects hr hs
  · have hrange := formatNOpcodes_toNat op hop
    rw [formatN_toNat] at h
    omega
  · rw [formatX_toNat, show (0x10#8).toNat = 0x10 from rfl] at h
    omega

/-- R57, R59: NOP's word is 0, whatever the data operand. -/
theorem decode_nop_iff (c : Command) : decode c = .instr .nop ↔ c.word = 0#32 := by
  constructor
  · intro h
    obtain ⟨-, hw, -⟩ := encodeOfDecode c .nop h
    exact hw.symm
  · intro hw
    obtain ⟨w, d⟩ := c
    cases hw
    exact decode_of_row 0 rfl rfl d

end Sys2Proof
end

section
/-! The step of a state whose presented word is illegal (R55, R59). -/

namespace Sys2Proof.Machine

variable {s : State} {c : Command}

theorem step_of_no_row (hc : s.cmdPort = some c) (hr : s.rspPort = none)
    (h : ∀ r ∈ opcodeTable, rowSelects r c.word = false) :
    step s = .next (raise .illegal { s with cmdPort := none }) := by
  simp only [step, hc, hr, decode_of_no_row h, takeIllegal]

/-- Settles O3: two rows never select the same word, so the row found is the only one, and it is found by the word. -/
theorem decodingIsTotalAndUnambiguous : Obligations.DecodingIsTotalAndUnambiguous :=
  ⟨fun _ _ _ => row_index_unique, fun _ _ => decode_of_rowSelects, fun _ _ => step_of_no_row,
    fun w d e => (decodes_iff ⟨w, d⟩).trans (decodes_iff ⟨w, e⟩).symm⟩

/-- SET_CFG's reserved data bits, as a bound on its operand (R91). -/
theorem execSetCfg_of_reserved {d : Word128} (hn : s.evalState ≠ .active) (hd : 2 ≤ d.toNat) :
    execSetCfg d s = .next (raise .illegal s) := by
  obtain ⟨h, -⟩ | ⟨-, -, e⟩ | ⟨-, h, -⟩ := execSetCfg_cases d s
  · exact absurd h hn
  · exact e
  · rw [reserved_clear_iff] at h
    omega

/-- Settles O4: no row selects a reserved word, and NOP's row selects the word 0 alone. -/
theorem reservedEncodingsRaiseIllegal : Obligations.ReservedEncodingsRaiseIllegal :=
  ⟨fun _ _ hc hr h => step_of_no_row hc hr (no_row_of_reserved h), fun _ _ => execSetCfg_of_reserved, decode_nop_iff⟩

end Sys2Proof.Machine
end

section
/-! One word of every command (R54). -/

namespace Sys2Proof

/-- Settles O5: the words of the commands that take data are encodings, and the others, with any data operand, are selected
by their rows. -/
theorem sampleWordsDecode : Obligations.SampleWordsDecode := fun d =>
  ⟨decode_of_row 0 rfl rfl d, decode_of_row 1 rfl rfl d, decodeOfEncode (.setCfg d) rfl, decode_of_row 3 rfl rfl d,
    decodeOfEncode (.wrPt 3 d) rfl, decodeOfEncode (.wrPt 65535 d) rfl, decodeOfEncode (.wrIvs d) rfl,
    decodeOfEncode (.wrTags d) rfl, decodeOfEncode (.wrTag d) rfl, decodeOfEncode (.start 20#64 33#64) rfl,
    decodeOfEncode (.absorb d) rfl, decode_of_row 10 rfl rfl d, decode_of_row 11 rfl rfl d, decode_of_row 12 rfl rfl d⟩

end Sys2Proof
end

section
/-! The datum of a response: 0^128, but for the two commands that read (R58). -/

namespace Sys2Proof.Machine

theorem reply_data_zero {i : Instr} (hs : i ≠ .rdStatus) (ha : i ≠ .rdAcc) (s : State) : (reply i s).data = 0#128 := by
  cases i with
  | rdStatus => exact absurd rfl hs
  | rdAcc => exact absurd rfl ha
  | _ => rfl

/-- Settles O21: an error answers 0^128, which RD_STATUS never does, and a success answers its command's reply. -/
theorem responseDatumIsZeroUnlessRead : Obligations.ResponseDatumIsZeroUnlessRead := by
  refine ⟨fun i s t h => ?_, fun e s => rfl⟩
  obtain ⟨hg, e, rfl⟩ | ⟨-, rfl⟩ := exec_next_cases h
  · exact ⟨_, rfl, fun _ => rfl, fun hi => absurd (hi ▸ trivial) hg, nofun, fun _ _ => rfl⟩
  · refine ⟨reply i s, rfl, fun ⟨e, he⟩ => absurd he (reply_no_error i s e), ?_, ?_, fun hs ha => reply_data_zero hs ha s⟩
    · rintro rfl
      rfl
    · rintro rfl -
      rfl

end Sys2Proof.Machine
end

section
/-! LOAD_PT: the WR_PT commands from an index on, by induction on the values (R62, R67). -/

namespace Sys2Proof.Machine

variable {s t : State} {i : Nat} {v : Word128} {vs : List Word128}

/-- What loading `vs` from index `i` on makes of `s`: nothing below `i` changes, and the values' entries are valid. -/
structure LoadedFrom (i : Nat) (vs : List Word128) (s t : State) : Prop where
  depth : t.depth = s.depth
  keeps_valid : ∀ j, ptValid s j = true → ptValid t j = true
  valid : ∀ j, i ≤ j → j < i + vs.length → ptValid t j = true
  below : ∀ j, j < i → tableRead t.pt j = tableRead s.pt j
  share : ∀ k v, vs[k]? = some v → tableRead t.pt (i + k) = shareIn s v

theorem loadedFrom_nil (i : Nat) (s : State) : LoadedFrom i [] s s where
  depth := rfl
  keeps_valid := fun _ h => h
  valid := fun _ h1 h2 => absurd h2 (Nat.not_lt.2 h1)
  below := fun _ _ => rfl
  share := nofun

/-- The first WR_PT writes index `i`, and the others start above it. -/
theorem loadedFrom_cons (hs : Table.wf s.pt) (h : LoadedFrom (i + 1) vs (success (.wrPt i v) s) t) :
    LoadedFrom i (v :: vs) s t where
  depth := h.depth
  keeps_valid := fun j hj => h.keeps_valid j ((ptValid_writePt i j (shareIn s v) s).2 (.inr hj))
  valid := fun j h1 h2 => by
    rw [List.length_cons] at h2
    by_cases hij : j = i
    · exact h.keeps_valid j ((ptValid_writePt i j (shareIn s v) s).2 (.inl hij))
    · exact h.valid j (by omega) (by omega)
  below := fun j hj => (h.below j (by omega)).trans (tableRead_tableWrite_other s.pt i j _ (by omega))
  share := fun k u hk => by
    cases k with
    | zero =>
      cases hk
      exact (h.below i i.lt_succ_self).trans (tableRead_tableWrite_same s.pt i _ hs)
    | succ k =>
      rw [Nat.add_succ, ← Nat.succ_add]
      exact h.share k u hk

theorem execAll_cons {i : Instr} {is : List Instr} (h : exec i s = .next t) : execAll (i :: is) s = execAll is t := by
  rw [execAll, h]

theorem execAll_loadPtFrom (vs : List Word128) (hs : Inv s) (hn : s.evalState ≠ .active) (hi : 1 ≤ i)
    (hd : i + vs.length ≤ s.depth + 1) :
    ∃ t, execAll (loadPtFrom i vs) s = .next t ∧ LoadedFrom i vs s t := by
  induction vs generalizing i s with
  | nil => exact ⟨s, rfl, loadedFrom_nil i s⟩
  | cons v vs ih =>
    rw [List.length_cons] at hd
    have hwrite : exec (.wrPt i v) s = .next (success (.wrPt i v) s) := exec_of_guard ⟨hn, hi, by omega⟩
    obtain ⟨t, ht, hl⟩ := ih (i := i + 1) (hs.exec hwrite) hn (by omega) (by rw [success_depth]; omega)
    exact ⟨t, (execAll_cons hwrite).trans ht, loadedFrom_cons hs.pt_wf hl⟩

/-- Settles O58: the values fill the entries from 1 on, so the run of valid entries has at least their number. -/
theorem loadPtFillsTheTable : Obligations.LoadPtFillsTheTable := by
  intro s vs hs hn hd
  obtain ⟨t, ht, hl⟩ := execAll_loadPtFrom vs hs hn (Nat.le_refl 1) (by omega)
  refine ⟨t, ht, le_ptN (hl.depth ▸ hd) fun j h1 hj => hl.valid j h1 (by omega), fun k v hk => ?_⟩
  rw [Nat.add_comm]
  exact hl.share k v hk

end Sys2Proof.Machine
end

section
/-! The normalisation, bit by bit: it keeps every byte in its place and reverses the byte's bits (R63 to R65). -/

namespace Sys2Proof.Machine

/-- Bit i % 8 of byte i / 8, counted from bit 0, is the mirrored bit of the same byte. -/
theorem normWord_bit (x : Word128) {i : Nat} (h : i < 128) :
    (normWord x).getLsbD i = x.getLsbD (8 * (i / 8) + (7 - i % 8)) := by
  have hmirror : 8 * (15 - (127 - i) / 8) + (127 - i) % 8 = 8 * (i / 8) + (7 - i % 8) := by omega
  rw [normWord, bitReverse_bit _ i h, byteSwap_bit _ _ (by omega), hmirror]

/-- Settles O32: byte j begins at bit 120 - 8 * j, a multiple of 8, and the mirrored bit lies in the same byte. -/
theorem normReversesTheBitsOfEachByte : Obligations.NormReversesTheBitsOfEachByte := by
  intro x j i hj hi
  have hmirror : 8 * ((120 - 8 * j + i) / 8) + (7 - (120 - 8 * j + i) % 8) = 120 - 8 * j + (7 - i) := by omega
  rw [byteOf_bit _ j i hi, byteOf_bit _ j (7 - i) (by omega), normWord_bit x (by omega), hmirror]

/-- Settles O33: mirroring a bit within its byte twice gives the bit back. -/
theorem normIsSelfInverse : Obligations.NormIsSelfInverse := by
  intro x
  apply BitVec.eq_of_getLsbD_eq
  intro i hi
  have htwice : 8 * ((8 * (i / 8) + (7 - i % 8)) / 8) + (7 - (8 * (i / 8) + (7 - i % 8)) % 8) = i := by omega
  rw [normWord_bit _ hi, normWord_bit _ (by omega), htwice]

/-- The byte swap keeps a bit's place in its byte (R63). -/
theorem byteOf_byteSwap (x : Word128) {j : Nat} (hj : j < 16) : byteOf (byteSwap x) j = byteOf x (15 - j) := by
  apply BitVec.eq_of_getLsbD_eq
  intro i hi
  have hswap : 8 * (15 - (120 - 8 * j + i) / 8) + (120 - 8 * j + i) % 8 = 120 - 8 * (15 - j) + i := by omega
  rw [byteOf_bit _ j i hi, byteOf_bit _ (15 - j) i hi, byteSwap_bit _ _ (by omega), hswap]

/-- Settles O31: the swap byte by byte and the reversal bit by bit, and norm is defined as the one after the other. -/
theorem normIsByteSwapThenBitReversal : Obligations.NormIsByteSwapThenBitReversal :=
  ⟨fun x _ => byteOf_byteSwap x, bitReverse_bit, fun _ => rfl⟩

end Sys2Proof.Machine
end

section
/-! The four writes: their words, the state check that refuses them in ACTIVE, and what each stores (R66 to R70). -/

namespace Sys2Proof.Machine

/-- WR_PT's word for an index is the opcode's weight plus the index (R53, R54). -/
theorem formatX_wrPt_eq_ofNat {idx : Nat} (h : idx < 2 ^ 16) :
    formatX 0x10#8 idx = BitVec.ofNat 32 (0x10000000 + idx) := by
  rw [← BitVec.toNat_inj, formatX_toNat, BitVec.toNat_ofNat, BitVec.toNat_ofNat]
  omega

theorem decode_wrPt {idx : Nat} (h : idx < 2 ^ 16) (v : Word128) :
    decode ⟨BitVec.ofNat 32 (0x10000000 + idx), v⟩ = .instr (.wrPt idx v) := by
  rw [← formatX_wrPt_eq_ofNat h]
  exact decodeOfEncode (.wrPt idx v) (decide_eq_true h)

/-- Settles O34: the three outcomes of WR_PT, and the read-after-write laws of the table for the success. -/
theorem wrPtWritesOneEntry : Obligations.WrPtWritesOneEntry := by
  refine ⟨fun idx v h => decode_wrPt h v, fun s idx v hwf => ?_⟩
  obtain ⟨ha, e⟩ | ⟨hn, hi, e⟩ | ⟨hn, hi, e⟩ := execWrPt_cases idx v s
  · exact ⟨fun _ => e, fun hn => absurd ha hn, fun hn => absurd ha hn⟩
  · exact ⟨fun ha => absurd ha hn, fun _ _ => e, fun _ h1 h2 => absurd ⟨h1, h2⟩ hi⟩
  · refine ⟨fun ha => absurd ha hn, fun _ hout => by omega, fun _ _ _ => ⟨_, e, ?_, ?_, ?_, ?_, rfl⟩⟩
    · exact tableRead_tableWrite_same s.pt idx (shareIn s v) hwf
    · exact fun j hj => tableRead_tableWrite_other s.pt idx j (shareIn s v) hj.symm
    · exact fun j => ptValid_writePt idx j (shareIn s v) s
    · exact tableWrite_wf s.pt idx (shareIn s v) hwf

/-- Two exclusive cases, read as a clause for each. -/
theorem clauses_of_cases {p a b : Prop} [Decidable p] (h : (p ∧ a) ∨ (¬p ∧ b)) : (p → a) ∧ (¬p → b) :=
  ite_prop_iff_and.1 (ite_prop_iff_or.2 h)

/-- Settles O35: the word is WR_IVS's encoding, and the two outcomes of WR_IVS are the two clauses. -/
theorem wrIvsWritesTheShare : Obligations.WrIvsWritesTheShare :=
  ⟨fun v => decodeOfEncode (.wrIvs v) rfl, fun s v => clauses_of_cases (execWrIvs_cases v s)⟩

/-- Settles O36: the word is WR_TAGS's encoding, and the two outcomes of WR_TAGS are the two clauses. -/
theorem wrTagsWritesTheTagShare : Obligations.WrTagsWritesTheTagShare :=
  ⟨fun v => decodeOfEncode (.wrTags v) rfl, fun s v => clauses_of_cases (execWrTags_cases v s)⟩

/-- Settles O37: the word is WR_TAG's encoding, and the two outcomes of WR_TAG are the two clauses. -/
theorem wrTagWritesTheTag : Obligations.WrTagWritesTheTag :=
  ⟨fun v => decodeOfEncode (.wrTag v) rfl, fun s v => clauses_of_cases (execWrTag_cases v s)⟩

end Sys2Proof.Machine
end

section
/-! The words as elements of GF(2^128): the polynomial of a word (R71), its class modulo the GCM polynomial, and `gmul` as
the product of classes. The laws of R72 are then those of a commutative ring; that the modulus is irreducible plays no part. -/

namespace Sys2Proof.Machine

open Polynomial

/-! ### The polynomial of a word -/

theorem coeff_polyOf (w : Word128) (i : Nat) :
    (polyOf w).coeff i = if i < 128 then (if w.getLsbD (127 - i) then 1 else 0) else 0 := by
  have hterm (j : Nat) : (if w.getLsbD (127 - j) then X ^ j else 0 : (ZMod 2)[X]).coeff i =
      if i = j then (if w.getLsbD (127 - j) then 1 else 0) else 0 := by
    cases w.getLsbD (127 - j) <;> simp [coeff_X_pow]
  simp only [polyOf, finsetSum_coeff, hterm, Finset.sum_ite_eq, Finset.mem_range]

/-- Xor adds polynomials: over GF(2) a coefficient added to itself is 0. -/
theorem polyOf_xor (u v : Word128) : polyOf (u ^^^ v) = polyOf u + polyOf v := by
  simp only [polyOf, ← Finset.sum_add_distrib, BitVec.getLsbD_xor]
  refine Finset.sum_congr rfl fun i _ => ?_
  cases u.getLsbD (127 - i) <;> cases v.getLsbD (127 - i) <;> simp [CharTwo.add_self_eq_zero]

theorem polyOf_injective : Function.Injective polyOf := by
  intro u v h
  apply BitVec.eq_of_getLsbD_eq
  intro i hi
  have hcoeff := congrArg (fun p : (ZMod 2)[X] => p.coeff (127 - i)) h
  simp only [coeff_polyOf, show 127 - i < 128 by omega, show 127 - (127 - i) = i by omega, if_true] at hcoeff
  cases hu : u.getLsbD i <;> cases hv : v.getLsbD i <;> simp [hu, hv] at hcoeff ⊢

theorem polyOf_oneBit {k : Nat} (hk : k < 128) : polyOf (oneBit k) = X ^ (127 - k) := by
  have hbit (j : Nat) : (oneBit k).getLsbD j = decide (j = k) := by
    simp only [oneBit, BitVec.getLsbD_shiftLeft, BitVec.getLsbD_one]
    grind
  ext i
  simp only [coeff_polyOf, hbit, coeff_X_pow, decide_eq_true_eq]
  grind

/-- The word of the reduction is X^7 + X^2 + X + 1, which stands for X^128 (R71). -/
theorem polyOf_reduction : polyOf reduction = X ^ 7 + X ^ 2 + X + 1 := by
  have hbits : reduction = oneBit 120 ^^^ oneBit 125 ^^^ oneBit 126 ^^^ oneBit 127 := by decide
  rw [hbits, polyOf_xor, polyOf_xor, polyOf_xor, polyOf_oneBit (by decide), polyOf_oneBit (by decide),
    polyOf_oneBit (by decide), polyOf_oneBit (by decide)]
  norm_num

/-- Multiplication by X shifts the word right; the bit shifted out is the coefficient of X^128. -/
theorem X_mul_polyOf (v : Word128) : X * polyOf v = polyOf (v >>> 1) + if v.getLsbD 0 then X ^ 128 else 0 := by
  have hbelow : X * (∑ i ∈ Finset.range 127, if v.getLsbD (127 - i) then X ^ i else 0 : (ZMod 2)[X]) =
      ∑ i ∈ Finset.range 127, if (v >>> 1).getLsbD (127 - (i + 1)) then X ^ (i + 1) else 0 := by
    rw [Finset.mul_sum]
    refine Finset.sum_congr rfl fun i hi => ?_
    have hshift : 1 + (127 - (i + 1)) = 127 - i := by have := Finset.mem_range.1 hi; omega
    rw [BitVec.getLsbD_ushiftRight, hshift, mul_ite, mul_zero, pow_succ']
  have hlow : (v >>> 1).getLsbD (127 - 0) = false := by simp
  rw [polyOf, Finset.sum_range_succ (n := 127), mul_add, hbelow, polyOf, Finset.sum_range_succ' (n := 127), hlow,
    Nat.sub_self, mul_ite, mul_zero, ← pow_succ']
  simp

/-- Over GF(2) adding the modulus to X^128 leaves the word of the reduction. -/
theorem X_pow_eq_reduction_add : X ^ 128 = polyOf reduction + gcmModulus := by
  have hmod : gcmModulus = X ^ 128 + polyOf reduction := by
    rw [polyOf_reduction]
    unfold gcmModulus
    simp only [add_assoc]
  rw [hmod, add_left_comm, CharTwo.add_self_eq_zero, add_zero]

/-- The shift-and-reduce step is multiplication by X, up to the modulus. -/
theorem X_mul_polyOf_eq_timesX (v : Word128) :
    X * polyOf v = polyOf (timesX v) + if v.getLsbD 0 then gcmModulus else 0 := by
  rw [X_mul_polyOf, timesX]
  cases v.getLsbD 0
  · simp only [Bool.false_eq_true, if_false]
  · simp only [if_true, X_pow_eq_reduction_add, polyOf_xor, add_assoc]

/-! ### The class of a word modulo the GCM polynomial -/

theorem gcmModulus_monic : gcmModulus.Monic := by
  unfold gcmModulus
  monicity!

theorem degree_polyOf_lt (w : Word128) : (polyOf w).degree < gcmModulus.degree := by
  have hdeg : gcmModulus.degree = 128 := by
    unfold gcmModulus
    compute_degree!
  rw [hdeg]
  exact (degree_lt_iff_coeff_zero _ 128).2 fun i hi => by rw [coeff_polyOf, if_neg (Nat.not_lt.2 hi)]

/-- The element of GF(2)[X] / (X^128 + X^7 + X^2 + X + 1) that a word stands for. -/
noncomputable def fieldOf (w : Word128) : AdjoinRoot gcmModulus := AdjoinRoot.mk gcmModulus (polyOf w)

/-- A word of a polynomial's class is the word of its remainder, since a word's polynomial has degree below 128. -/
theorem polyOf_eq_modByMonic {w : Word128} {p : (ZMod 2)[X]} (h : fieldOf w = AdjoinRoot.mk gcmModulus p) :
    polyOf w = p %ₘ gcmModulus := by
  have hrem := congrArg (AdjoinRoot.modByMonicHom gcmModulus_monic) h
  rwa [fieldOf, AdjoinRoot.modByMonicHom_mk, AdjoinRoot.modByMonicHom_mk,
    (modByMonic_eq_self_iff gcmModulus_monic).2 (degree_polyOf_lt w)] at hrem

theorem fieldOf_injective : Function.Injective fieldOf := fun _ _ h =>
  polyOf_injective ((polyOf_eq_modByMonic h).trans (polyOf_eq_modByMonic rfl).symm)

@[simp] theorem fieldOf_xor (u v : Word128) : fieldOf (u ^^^ v) = fieldOf u + fieldOf v := by
  rw [fieldOf, polyOf_xor, map_add, fieldOf, fieldOf]

@[simp] theorem fieldOf_zero : fieldOf 0#128 = 0 := by simp [fieldOf, polyOf]

@[simp] theorem fieldOf_timesX (v : Word128) : fieldOf (timesX v) = AdjoinRoot.root gcmModulus * fieldOf v := by
  have h := congrArg (AdjoinRoot.mk gcmModulus) (X_mul_polyOf_eq_timesX v)
  simpa [fieldOf, apply_ite (AdjoinRoot.mk gcmModulus)] using h.symm

/-! ### The multiplication -/

/-- The part of a word's polynomial that the loop of R71 still has to multiply by, with `n` passes left. -/
noncomputable def polyLeft (x : Word128) (n : Nat) : (ZMod 2)[X] :=
  ∑ i ∈ Finset.range n, if x.getLsbD (n - 1 - i) then X ^ i else 0

theorem polyLeft_all (x : Word128) : polyLeft x 128 = polyOf x := rfl

theorem polyLeft_succ (x : Word128) (n : Nat) :
    polyLeft x (n + 1) = X * polyLeft x n + if x.getLsbD n then 1 else 0 := by
  rw [polyLeft, Finset.sum_range_succ', polyLeft, Finset.mul_sum]
  congr 1
  refine Finset.sum_congr rfl fun i _ => ?_
  rw [show n + 1 - 1 - (i + 1) = n - 1 - i by omega, mul_ite, mul_zero, pow_succ']

/-- With `n` passes left the loop adds the product of what is left of x and of v. -/
theorem fieldOf_gmulLoop (x : Word128) (n : Nat) (v : Word128) :
    fieldOf (gmulLoop x n v 0#128) = AdjoinRoot.mk gcmModulus (polyLeft x n) * fieldOf v := by
  induction n generalizing v with
  | zero => simp [gmulLoop, polyLeft]
  | succ n ih =>
    have hbit : fieldOf (if x.getLsbD n then v else 0#128) =
        AdjoinRoot.mk gcmModulus (if x.getLsbD n then 1 else 0) * fieldOf v := by
      cases x.getLsbD n <;> simp
    rw [gmulLoop_succ, fieldOf_xor, hbit, ih, fieldOf_timesX, polyLeft_succ, map_add, map_mul, AdjoinRoot.mk_X]
    ring

@[simp] theorem fieldOf_gmul (x y : Word128) : fieldOf (gmul x y) = fieldOf x * fieldOf y := by
  rw [gmul, fieldOf_gmulLoop, polyLeft_all]
  rfl

/-- Settles O39: gmul is the product of classes, and a word's polynomial is its class's remainder. -/
theorem gmulIsMultiplicationModuloTheGcmPolynomial : Obligations.GmulIsMultiplicationModuloTheGcmPolynomial :=
  fun x y => polyOf_eq_modByMonic (by rw [fieldOf_gmul, fieldOf, fieldOf, map_mul])

theorem gmul_comm (a b : Word128) : gmul a b = gmul b a := fieldOf_injective (by simp [mul_comm])

theorem gmul_assoc (a b c : Word128) : gmul (gmul a b) c = gmul a (gmul b c) := fieldOf_injective (by simp [mul_assoc])

theorem xor_gmul (a b c : Word128) : gmul (a ^^^ c) b = gmul a b ^^^ gmul c b := fieldOf_injective (by simp [add_mul])

@[simp] theorem zero_gmul (b : Word128) : gmul 0#128 b = 0#128 := fieldOf_injective (by simp)

theorem fieldOf_one : fieldOf (oneBit 127) = 1 := by
  rw [fieldOf, polyOf_oneBit (by decide), Nat.sub_self, pow_zero, map_one]

theorem one_gmul (b : Word128) : gmul (oneBit 127) b = b := fieldOf_injective (by simp [fieldOf_one])

/-- Settles O40: the laws of the quotient ring, read on the words. -/
theorem gmulIsCommutativeAssociativeAndDistributesOverXor :
    Obligations.GmulIsCommutativeAssociativeAndDistributesOverXor := by
  have hone : 0x80000000000000000000000000000000#128 = oneBit 127 := by decide
  exact ⟨gmul_comm, zero_gmul, hone ▸ one_gmul, xor_gmul, gmul_assoc⟩

end Sys2Proof.Machine
end

section
/-! The evaluation from START to FINISH: the state it leaves, the sum of R79 in ACC, and GHASH_H by Horner's rule (R80). -/

namespace Sys2Proof.Machine

/-! ### The sum of products -/

theorem directSum_cons (share : Nat → Word128) (b : Word128) (bs : List Word128) :
    directSum share (b :: bs) = gmul b (share (bs.length + 1)) ^^^ directSum share bs := rfl

@[simp] theorem directSum_nil (share : Nat → Word128) : directSum share [] = 0#128 := rfl

/-- The xor of words does not depend on their order (R79). -/
theorem xorAll_perm {l r : List Word128} (h : l.Perm r) : xorAll l = xorAll r := by
  induction h with
  | nil => rfl
  | cons w _ ih => rw [xorAll, xorAll, ih]
  | swap u v l => simp only [xorAll, ← BitVec.xor_assoc, BitVec.xor_comm u v]
  | trans _ _ ih₁ ih₂ => exact ih₁.trans ih₂

/-- The sum with shares of the entries is shared in the same way (R80). -/
theorem directSum_xor_share (p q : Nat → Word128) (bs : List Word128) :
    directSum p bs ^^^ directSum q bs = directSum (fun i => p i ^^^ q i) bs := by
  induction bs with
  | nil => simp
  | cons b bs ih =>
    apply fieldOf_injective
    have hfield := congrArg fieldOf ih
    simp only [directSum_cons, fieldOf_xor, fieldOf_gmul] at hfield ⊢
    rw [← hfield]
    ring

/-- The sum over n blocks reads the entries 1 to n. -/
theorem directSum_congr {p q : Nat → Word128} (bs : List Word128) (h : ∀ i, 1 ≤ i → i ≤ bs.length → p i = q i) :
    directSum p bs = directSum q bs := by
  induction bs with
  | nil => rfl
  | cons b bs ih =>
    have hhead : p (bs.length + 1) = q (bs.length + 1) := h _ (Nat.le_add_left 1 _) (Nat.le_refl _)
    have htail := ih fun i h1 hi => h i h1 (Nat.le_succ_of_le hi)
    rw [directSum_cons, directSum_cons, hhead, htail]

/-- R20's H^i, a repeated gmul, is the power of H's class. -/
theorem fieldOf_hPower (h : Word128) (n : Nat) : fieldOf (hPower h (n + 1)) = fieldOf h ^ (n + 1) := by
  change fieldOf (powerFrom h n) = _
  induction n with
  | zero => simp [powerFrom]
  | succ n ih => rw [powerFrom, fieldOf_gmul, ih, ← pow_succ]

/-- Horner's rule: n blocks more multiply the accumulator by H^n and add the sum of R79 with the powers of H. -/
theorem fieldOf_ghashFrom (h acc : Word128) (bs : List Word128) :
    fieldOf (ghashFrom h acc bs) = fieldOf acc * fieldOf h ^ bs.length + fieldOf (directSum (hPower h) bs) := by
  induction bs generalizing acc with
  | nil => simp [ghashFrom]
  | cons b bs ih =>
    rw [ghashFrom, ih, directSum_cons, fieldOf_gmul, fieldOf_xor, fieldOf_xor, fieldOf_gmul, fieldOf_hPower,
      List.length_cons]
    ring

theorem directSum_hPower (h : Word128) (bs : List Word128) : directSum (hPower h) bs = ghashFrom h 0#128 bs :=
  fieldOf_injective (by simp [fieldOf_ghashFrom])

/-! ### The blocks -/

@[simp] theorem length_dataBlocksFrom (a c : Word64) (m k : Nat) (ws : List Word128) :
    (dataBlocksFrom a c m k ws).length = ws.length := by
  induction ws generalizing k with
  | nil => rfl
  | cons w ws ih => rw [dataBlocksFrom, List.length_cons, ih, List.length_cons]

theorem Ready.length_blocksOf {a c : Word64} {ws : List Word128} {s : State} (h : Ready a c ws s) :
    (blocksOf a c ws).length = blockCount a c := by
  simpa [blocksOf] using h.words

/-! ### The run of an evaluation -/

/-- The state that the ABSORBs of the words left and FINISH leave: ACC gains the sum of the products of the blocks left. -/
def concluded (ws : List Word128) (s : State) : State :=
  respond .ok 0#128
    { s with
      acc := s.acc ^^^ directSum (tableRead s.pt)
        (dataBlocksFrom s.lenA s.lenC s.m.toNat (s.k.toNat + 1) ws ++ [lenblock s.lenA s.lenC])
      k := s.m, evalState := .done }

theorem success_finish (s : State) : success .finish s = concluded [] s := by
  simp [success, reply, effect, concluded, dataBlocksFrom, directSum_cons]

theorem success_absorb_k (w : Word128) {s : State} (h : s.k.toNat < 65535) :
    (success (.absorb w) s).k.toNat = s.k.toNat + 1 := toNat_ofNat16 h

/-- An ABSORB takes the first of the words left; its share is that of the power its block has among the blocks left. -/
theorem concluded_absorb (w : Word128) (ws : List Word128) {s : State} (hw : s.k.toNat + (ws.length + 1) + 1 = s.m.toNat) :
    concluded ws (success (.absorb w) s) = concluded (w :: ws) s := by
  have hentry : s.m.toNat - s.k.toNat = ws.length + 1 + 1 := by omega
  have hk := success_absorb_k w (s := s) (by omega)
  rw [concluded, concluded, hk]
  simp [success, reply, effect, respond, dataBlocksFrom, directSum_cons, hentry, maskedBlock, BitVec.xor_assoc]

/-- From a running evaluation with one word per data block left, the ABSORBs and FINISH succeed. -/
theorem execAll_absorbs_finish (ws : List Word128) {s : State} (hs : Inv s) (ha : s.evalState = .active)
    (hw : s.k.toNat + ws.length + 1 = s.m.toNat) :
    execAll (ws.map .absorb ++ [.finish]) s = .next (concluded ws s) := by
  induction ws generalizing s with
  | nil =>
    have g : Guard .finish s := ⟨ha, hw, hs.depth_pos⟩
    rw [List.map_nil, List.nil_append, execAll_cons (exec_of_guard g), success_finish, execAll]
  | cons w ws ih =>
    rw [List.length_cons] at hw
    have ⟨_, hmd⟩ := hs.runInTable ha
    have g : Guard (.absorb w) s := ⟨ha, by omega, by omega, by omega⟩
    have hexec := exec_of_guard g
    have hleft : (success (.absorb w) s).k.toNat + ws.length + 1 = s.m.toNat := by
      rw [success_absorb_k w (by omega)]
      omega
    rw [List.map_cons, List.cons_append, execAll_cons hexec, ih (hs.exec hexec) ha hleft, concluded_absorb w ws hw]

/-- The state after an evaluation's FINISH: the sum over the blocks in ACC, STATE DONE, the verdict dropped, and the loads
as they were. -/
def evaluated (a c : Word64) (ws : List Word128) (s : State) : State :=
  respond .ok 0#128
    { s with
      lenA := a, lenC := c, m := BitVec.ofNat 16 (blockCount a c), k := BitVec.ofNat 16 (blockCount a c)
      acc := directSum (tableRead s.pt) (blocksOf a c ws), vv := false, verdict := false, evalState := .done }

theorem evaluated_acc (a c : Word64) (ws : List Word128) (s : State) :
    (evaluated a c ws s).acc = directSum (tableRead s.pt) (blocksOf a c ws) := rfl

/-- An evaluation that can start runs to its end (R79, R111). -/
theorem execAll_ghashSeq {a c : Word64} {ws : List Word128} {s : State} (h : Ready a c ws s) :
    execAll (ghashSeq a c ws) s = .next (evaluated a c ws s) := by
  have hexec := exec_of_guard (i := .start a c) ⟨h.not_active, h.long_enough, h.fits, h.loaded⟩
  have hm : (success (.start a c) s).m.toNat = blockCount a c := toNat_ofNat16 (h.fits.trans h.inv.depth_le)
  have hk : (success (.start a c) s).k.toNat = 0 := rfl
  have hleft : (success (.start a c) s).k.toNat + ws.length + 1 = (success (.start a c) s).m.toNat := by
    rw [hm, hk, Nat.zero_add, h.words]
  rw [ghashSeq, List.cons_append, execAll_cons hexec, execAll_absorbs_finish ws (h.inv.exec hexec) rfl hleft,
    concluded, hm, hk]
  simp [success, reply, effect, evaluated, blocksOf, dropVerdict, respond]

/-- Settles O49: every command of the evaluation succeeds, ACC gains the products one by one, and xor commutes. -/
theorem partialGhashIsTheDirectSum : Obligations.PartialGhashIsTheDirectSum := fun _ _ _ _ h =>
  ⟨_, execAll_ghashSeq h, rfl, rfl, fun _ hl => (xorAll_perm hl).symm⟩

/-- Settles O50: the sum of R79 with the powers of H is GHASH_H, and the sums of two shares are shares of the sum. -/
theorem partialGhashesSumToGhash : Obligations.PartialGhashesSumToGhash := by
  refine ⟨fun s a c ws h hs hpow => ⟨_, execAll_ghashSeq hs, ?_⟩,
    fun p q a c ws h hp hq hpow => ⟨_, _, execAll_ghashSeq hp, execAll_ghashSeq hq, ?_⟩⟩
  · rw [evaluated_acc, directSum_congr _ (hs.length_blocksOf ▸ hpow), directSum_hPower]
  · rw [evaluated_acc, evaluated_acc, directSum_xor_share, directSum_congr _ (hp.length_blocksOf ▸ hpow),
      directSum_hPower]

end Sys2Proof.Machine
end

section
/-! The operands of the evaluation: the mask, the number of bytes of a block, and the length block (R77, R78). -/

namespace Sys2Proof.Machine

/-- Byte j lies in the mask of n bytes exactly if j < n. -/
theorem byteOf_and_maskw (w : Word128) {n j : Nat} (hj : j < 16) (hn : n ≤ 16) :
    byteOf (w &&& maskw n) j = if j < n then byteOf w j else 0#8 := by
  apply BitVec.eq_of_getLsbD_eq
  intro i hi
  have hin : 128 - 8 * n ≤ 120 - 8 * j + i ↔ j < n := by omega
  rw [byteOf_bit _ j i hi, BitVec.getLsbD_and, maskw_bit n _ (by omega)]
  by_cases h : j < n
  · simp [hin, h, byteOf_bit w j i hi]
  · simp [hin, h]

/-- Settles O41: the mask byte by byte, and R78's last block of its part is the one that `nbytes` cuts short. -/
theorem padBytesAreCleared : Obligations.PadBytesAreCleared := by
  refine ⟨fun w n j hj hn => byteOf_and_maskw w hj hn, fun s k w hc hm h1 hk => ?_⟩
  have hlast : (if k ≤ (s.lenA.toNat + 15) / 16 then k = (s.lenA.toNat + 15) / 16 else k + 1 = s.m.toNat) ↔
      k = (s.lenA.toNat + 15) / 16 ∨ k = s.m.toNat - 1 ∧ (s.lenA.toNat + 15) / 16 < k := by
    split <;> omega
  rw [maskedBlock, nbytes_eq _ _ _ _ hc]
  simp only [hlast]

/-- The block counts that START can accept bound both lengths (R77). -/
theorem lengths_lt_of_blockCount {a c : Word64} (hc : 16 ≤ c.toNat) (hm : blockCount a c ≤ 65535) :
    a.toNat < 2 ^ 20 ∧ c.toNat - 16 < 2 ^ 20 := by
  rw [blockCount_eq a c hc] at hm
  omega

/-- The length block in R77's form, from the bit-lengths as numbers. -/
theorem lenblock_eq_bitLengths (a : Word64) {c : Word64} (hc : 16 ≤ c.toNat) :
    lenblock a c = BitVec.ofNat 64 (8 * a.toNat) ++ BitVec.ofNat 64 (8 * (c.toNat - 16)) := by
  have hmul (x : Word64) : BitVec.ofNat 64 (8 * x.toNat) = 8#64 * x := by simp [BitVec.ofNat_mul]
  rw [lenblock, ← bodyLen_toNat c hc, hmul, hmul]

/-- Settles O42: each half of the length block is a length times 8, and below 2^20 the product does not wrap. -/
theorem lengthBlockHoldsTheBitLengths : Obligations.LengthBlockHoldsTheBitLengths := by
  intro a c hc hm
  obtain ⟨ha, hb⟩ := lengths_lt_of_blockCount hc (by rwa [blockCount_eq a c hc])
  rw [lenblock_eq_bitLengths a hc, append_high, append_low, BitVec.toNat_ofNat, BitVec.toNat_ofNat]
  omega

end Sys2Proof.Machine
end

section
/-! START, ABSORB, FINISH and RD_ACC, one command at a time: the word, the errors and the success (R81 to R84). -/

namespace Sys2Proof.Machine

theorem allValid_eq_false_iff (s : State) (n : Nat) :
    allValid s n = false ↔ ∃ j, 1 ≤ j ∧ j ≤ n ∧ ptValid s j = false := by
  rw [← Bool.not_eq_true, allValid_iff]
  simp

/-- Settles O44: the four outcomes of START, with m as R75's number and the table's check entry by entry. -/
theorem startBeginsAnEvaluation : Obligations.StartBeginsAnEvaluation := by
  refine ⟨fun a c => decodeOfEncode (.start a c) rfl, fun s a c hdepth => ?_⟩
  have hptN := ptN_lt_iff s ((a.toNat + 15) / 16 + (c.toNat - 16 + 15) / 16 + 1)
  simp only [← allValid_eq_false_iff, ← allValid_iff]
  obtain ⟨ha, e⟩ | ⟨hn, hc, e⟩ | ⟨hn, hc, hf, e⟩ | ⟨hn, hc, hd, hv, e⟩ := execStart_cases a c s
  · exact ⟨fun _ => e, fun hn => absurd ha hn, fun hn => absurd ha hn, fun hn => absurd ha hn, hptN⟩
  · exact ⟨fun ha => absurd ha hn, fun _ _ => e, fun _ hc' => by omega, fun _ hc' => by omega, hptN⟩
  · rw [← blockCount_eq a c hc] at hptN ⊢
    exact ⟨fun ha => absurd ha hn, fun _ hc' => by omega, fun _ _ _ => e,
      fun _ _ hd hv => absurd hf (by simp [hd, hv]), hptN⟩
  · rw [← blockCount_eq a c hc] at hptN ⊢
    exact ⟨fun ha => absurd ha hn, fun _ hc' => by omega, fun _ _ hf => absurd hf (by simp [hd, hv]),
      fun _ _ _ _ => ⟨e, toNat_ofNat16 (hd.trans hdepth)⟩, hptN⟩

/-- What ABSORB stores in K, as R82's K + 1. -/
theorem ofNat_toNat_succ (k : BitVec 16) : BitVec.ofNat 16 (k.toNat + 1) = k + 1#16 := by
  simp [BitVec.ofNat_add]

/-- Settles O46: the invariant rules out the fault and makes LEN_C at least 16, so the mask is that of R82's n bytes. -/
theorem absorbFoldsTheNextBlock : Obligations.AbsorbFoldsTheNextBlock := by
  refine ⟨fun w => decodeOfEncode (.absorb w) rfl, fun s w hs => ?_⟩
  obtain ⟨hn, e⟩ | ⟨ha, hk, e⟩ | ⟨ha, hk, hd, -⟩ | ⟨ha, hk, hd, e⟩ := execAbsorb_cases w s
  · exact ⟨fun _ => e, fun ha => absurd ha hn, fun ha => absurd ha hn⟩
  · exact ⟨fun hn => absurd ha hn, fun _ _ => e, fun _ hk' => absurd hk hk'⟩
  · have := hs.runInTable ha
    omega
  · refine ⟨fun hn => absurd ha hn, fun _ hk' => absurd hk' hk, fun _ _ => ?_⟩
    have hlen := (hs.lengths_count (by simp [ha])).1
    have hentry : s.m.toNat - (s.k.toNat + 1) + 1 = s.m.toNat - s.k.toNat := by omega
    rw [maskedBlock, nbytes_eq _ _ _ _ hlen, ofNat_toNat_succ] at e
    simp only [hentry]
    exact e

/-- Settles O47: the word is FINISH's whatever the operand, and the invariant gives the length block its exact halves. -/
theorem finishFoldsTheLengthBlock : Obligations.FinishFoldsTheLengthBlock := by
  refine ⟨decode_of_row 10 rfl rfl, fun s hs => ?_⟩
  obtain ⟨hn, e⟩ | ⟨ha, hk, e⟩ | ⟨ha, hk, hd, -⟩ | ⟨ha, hk, hd, e⟩ := execFinish_cases s
  · exact ⟨fun _ => e, fun ha => absurd ha hn, fun ha => absurd ha hn⟩
  · exact ⟨fun hn => absurd ha hn, fun _ _ => e, fun _ hk' => absurd hk' hk⟩
  · exact absurd hs.depth_pos (by omega)
  · refine ⟨fun hn => absurd ha hn, fun _ hk' => absurd hk hk', fun _ _ => ?_⟩
    have hlen := (hs.lengths_count (by simp [ha])).1
    rw [← lenblock_eq_bitLengths s.lenA hlen]
    exact e

/-- Settles O48: the word is RD_ACC's whatever the operand, and the two outcomes of RD_ACC are the two clauses. -/
theorem rdAccReturnsThePartialGhash : Obligations.RdAccReturnsThePartialGhash :=
  ⟨decode_of_row 11 rfl rfl, fun s => (clauses_of_cases (execRdAcc_cases s).symm).symm⟩

end Sys2Proof.Machine
end

section
/-! VERIFY: its outcomes, and the bits in which the reconstructed value differs from TAG, which decide between PASS and FAIL
(R85, R86, R88). -/

namespace Sys2Proof.Machine

/-- Settles O51: the word is VERIFY's whatever the operand, and the four outcomes of VERIFY are the four clauses. -/
theorem verifyComparesTheReconstructedTag : Obligations.VerifyComparesTheReconstructedTag := by
  refine ⟨decode_of_row 12 rfl rfl, fun s => ?_⟩
  obtain ⟨hn, e⟩ | ⟨hd, hl, e⟩ | ⟨hd, hl, hr, e⟩ | ⟨hd, hl, hr, e⟩ := execVerify_cases s
  · exact ⟨fun _ => e, fun hd => absurd hd hn, fun hd => absurd hd hn⟩
  · exact ⟨fun hn => absurd hd hn, fun _ _ => e, fun _ hi hg ha => absurd ⟨hi, hg, ha⟩ hl⟩
  · exact ⟨fun hn => absurd hd hn, fun _ hmissing => by simp [hl] at hmissing,
      fun _ _ _ _ => ⟨fun _ => e, fun hne => absurd hr hne⟩⟩
  · exact ⟨fun hn => absurd hd hn, fun _ hmissing => by simp [hl] at hmissing,
      fun _ _ _ _ => ⟨fun heq => absurd heq hr, fun _ => e⟩⟩

/-- The bits in which the reconstructed value differs from TAG. -/
def mismatch (s : State) : Word128 := recon s ^^^ s.tag

theorem mismatch_eq_zero_iff (s : State) : mismatch s = 0#128 ↔ recon s = s.tag := BitVec.xor_eq_zero_iff

theorem verify_passes_iff (s : State) : (success .verify s).rspPort = some ⟨.pass, 0#128⟩ ↔ mismatch s = 0#128 := by
  rw [mismatch_eq_zero_iff, success_rspPort, reply]
  by_cases h : recon s = s.tag <;> simp [h]

theorem verify_fails_iff (s : State) : (success .verify s).rspPort = some ⟨.fail, 0#128⟩ ↔ mismatch s ≠ 0#128 := by
  rw [Ne, mismatch_eq_zero_iff, success_rspPort, reply]
  by_cases h : recon s = s.tag <;> simp [h]

theorem oneBit_ne_zero {b : Nat} (hb : b < 128) : oneBit b ≠ 0#128 := fun h => by
  have hbit := congrArg (fun w : Word128 => w.getLsbD b) h
  simp [oneBit, hb] at hbit

/-- Where VERIFY passes, it fails once an operand's flip has brought in a differing bit. -/
theorem verify_fails_of_flip {s u : State} {b : Nat} (hb : b < 128) (hs : mismatch s = 0#128) (g : Guard .verify u)
    (hu : mismatch u = mismatch s ^^^ oneBit b) : ∃ v, exec .verify u = .next v ∧ v.rspPort = some ⟨.fail, 0#128⟩ := by
  rw [hs, BitVec.zero_xor] at hu
  exact ⟨_, exec_of_guard g, (verify_fails_iff u).2 (hu ▸ oneBit_ne_zero hb)⟩

/-- Settles O53: each of the three operands enters the comparison by xor. -/
theorem aFlippedOperandBitFails : Obligations.AFlippedOperandBitFails := by
  intro s t b hb h hpass
  obtain ⟨g, rfl⟩ := success_of_no_error h hpass nofun
  have hs := (verify_passes_iff s).1 hpass
  refine ⟨verify_fails_of_flip hb hs g ?_, verify_fails_of_flip hb hs g ?_, verify_fails_of_flip hb hs g ?_⟩ <;>
    simp only [mismatch, recon] <;> ac_rfl

end Sys2Proof.Machine
end

section
/-! A word with one bit set is a power of X, and X has an inverse modulo the GCM polynomial, whose constant term is 1: so
the product with such a word is 0 only for 0 (R71, R72). -/

namespace Sys2Proof.Machine

open Polynomial

theorem isUnit_root : IsUnit (AdjoinRoot.root gcmModulus) := by
  have hmod : gcmModulus = X * (X ^ 127 + X ^ 6 + X + 1) + 1 := by
    unfold gcmModulus
    ring
  have hzero : AdjoinRoot.mk gcmModulus (X * (X ^ 127 + X ^ 6 + X + 1) + 1) = 0 := by
    rw [← hmod, AdjoinRoot.mk_self]
  rw [map_add, map_mul, map_one, AdjoinRoot.mk_X, add_eq_zero_iff_eq_neg] at hzero
  exact isUnit_of_mul_isUnit_left (hzero ▸ isUnit_one.neg)

theorem fieldOf_oneBit {b : Nat} (hb : b < 128) : fieldOf (oneBit b) = AdjoinRoot.root gcmModulus ^ (127 - b) := by
  rw [fieldOf, polyOf_oneBit hb, map_pow, AdjoinRoot.mk_X]

theorem gmul_oneBit_eq_zero_iff (w : Word128) {b : Nat} (hb : b < 128) : gmul w (oneBit b) = 0#128 ↔ w = 0#128 := by
  have hunit : IsUnit (fieldOf (oneBit b)) := fieldOf_oneBit hb ▸ isUnit_root.pow _
  rw [← fieldOf_injective.eq_iff, fieldOf_gmul, fieldOf_zero, hunit.mul_left_eq_zero, ← fieldOf_zero,
    fieldOf_injective.eq_iff]

theorem gmul_xor (a b c : Word128) : gmul a (b ^^^ c) = gmul a b ^^^ gmul a c := by
  rw [gmul_comm, xor_gmul, gmul_comm b, gmul_comm c]

end Sys2Proof.Machine
end

section
/-! Whole verifications: what VERIFY compares after an evaluation, with honest shares (R87), and with one bit of a block or
of a share flipped (R88). -/

namespace Sys2Proof.Machine

variable {a c : Word64} {ws ws' : List Word128} {s s' t : State} {d : Word128}

/-! ### The run of a verification -/

theorem execAll_append {is js : List Instr} (h : execAll is s = .next t) : execAll (is ++ js) s = execAll js t := by
  induction is generalizing s with
  | nil =>
    cases h
    rfl
  | cons i is ih =>
    rw [execAll] at h
    split at h
    next u hu => rw [List.cons_append, execAll_cons hu, ih h]
    next => cases h
    next => cases h

/-- A verification that can start, with its operands loaded, runs to its end (R111). -/
theorem execAll_verification (h : Ready a c ws s) (hl : Loaded s) :
    execAll (verification a c ws) s = .next (success .verify (evaluated a c ws s)) := by
  have g : Guard .verify (evaluated a c ws s) := ⟨rfl, hl⟩
  rw [verification, execAll_append (execAll_ghashSeq h), execAll_cons (exec_of_guard g), execAll]

theorem recon_evaluated (a c : Word64) (ws : List Word128) (s : State) :
    recon (evaluated a c ws s) = directSum (tableRead s.pt) (blocksOf a c ws) ^^^ s.ivs ^^^ s.tags := rfl

/-- Settles O52: the two sums add up to GHASH_H, and the IV share of the peer's tag share meets the one in IVS. -/
theorem honestSharesPass : Obligations.HonestSharesPass := by
  intro p q u a c ws h ek hp hl hq hpow hek hu htags
  cases (execAll_ghashSeq hq).symm.trans hu
  have hsum : directSum (tableRead p.pt) (blocksOf a c ws) ^^^ directSum (tableRead q.pt) (blocksOf a c ws) =
      ghashFrom h 0#128 (blocksOf a c ws) := by
    rw [directSum_xor_share, directSum_congr _ (hp.length_blocksOf ▸ hpow), directSum_hPower]
  have hrecon : recon (evaluated a c ws p) = ghashFrom h 0#128 (blocksOf a c ws) ^^^ ek := by
    rw [recon_evaluated, htags, evaluated_acc, ← hsum, ← hek]
    ac_rfl
  refine ⟨_, execAll_verification hp hl, hrecon, fun htag => ?_, fun htag => ?_⟩
  · exact (verify_passes_iff _).2 ((mismatch_eq_zero_iff _).2 (hrecon.trans htag.symm))
  · exact (verify_fails_iff _).2 fun h0 => htag (((mismatch_eq_zero_iff _).1 h0).symm.trans hrecon)

/-- After a passing verification, one that differs in the table and the words alone passes or fails as its sum is the same
or not. -/
theorem verification_of_changed_sum (hs : Ready a c ws s) (hl : Loaded s) (hs' : Ready a c ws' s')
    (hrest : s' = { s with pt := s'.pt })
    (hsum : directSum (tableRead s'.pt) (blocksOf a c ws') = directSum (tableRead s.pt) (blocksOf a c ws) ^^^ d)
    (hrun : execAll (verification a c ws) s = .next t) (hpass : t.rspPort = some ⟨.pass, 0#128⟩) :
    ∃ u, execAll (verification a c ws') s' = .next u ∧
      (d = 0#128 → u.rspPort = some ⟨.pass, 0#128⟩) ∧ (d ≠ 0#128 → u.rspPort = some ⟨.fail, 0#128⟩) := by
  cases (execAll_verification hs hl).symm.trans hrun
  have hl' : Loaded s' := by
    rw [hrest]
    exact hl
  have hmismatch : mismatch (evaluated a c ws' s') = mismatch (evaluated a c ws s) ^^^ d := by
    rw [mismatch, recon_evaluated, hsum, hrest, mismatch, recon_evaluated]
    simp only [evaluated, respond_tag]
    ac_rfl
  rw [(verify_passes_iff _).1 hpass, BitVec.zero_xor] at hmismatch
  refine ⟨_, execAll_verification hs' hl', fun hd => ?_, fun hd => ?_⟩
  · exact (verify_passes_iff _).2 (hmismatch.trans hd)
  · exact (verify_fails_iff _).2 (hmismatch.trans_ne hd)

/-! ### The sum, split at one block -/

theorem directSum_append (share : Nat → Word128) (l r : List Word128) :
    directSum share (l ++ r) = directSum (fun i => share (i + r.length)) l ^^^ directSum share r := by
  induction l with
  | nil => simp
  | cons b l ih =>
    rw [List.cons_append, directSum_cons, ih, directSum_cons, List.length_append, Nat.add_right_comm, BitVec.xor_assoc]

/-- A change of one block changes the sum by the product with the block's share. -/
theorem directSum_block_xor (share : Nat → Word128) (l r : List Word128) (b d : Word128) :
    directSum share (l ++ (b ^^^ d) :: r) = directSum share (l ++ b :: r) ^^^ gmul d (share (r.length + 1)) := by
  rw [directSum_append, directSum_append, directSum_cons, directSum_cons, xor_gmul, List.length_cons, List.length_cons]
  ac_rfl

/-- A change of one share changes the sum by the product with the share's block. -/
theorem directSum_share_xor {p q : Nat → Word128} (l r : List Word128) (b d : Word128)
    (hq : q (r.length + 1) = p (r.length + 1) ^^^ d) (hrest : ∀ i, i ≠ r.length + 1 → q i = p i) :
    directSum q (l ++ b :: r) = directSum p (l ++ b :: r) ^^^ gmul b d := by
  have hleft : directSum (fun i => q (i + (r.length + 1))) l = directSum (fun i => p (i + (r.length + 1))) l :=
    directSum_congr l fun i h1 _ => hrest _ (by omega)
  have hright : directSum q r = directSum p r := directSum_congr r fun i _ hi => hrest i (by omega)
  rw [directSum_append, directSum_append, directSum_cons, directSum_cons, List.length_cons, hleft, hright, hq, gmul_xor]
  ac_rfl

/-! ### A flipped bit of a block -/

theorem dataBlocksFrom_append (a c : Word64) (m k : Nat) (l r : List Word128) :
    dataBlocksFrom a c m k (l ++ r) = dataBlocksFrom a c m k l ++ dataBlocksFrom a c m (k + l.length) r := by
  induction l generalizing k with
  | nil => rfl
  | cons w l ih =>
    rw [List.cons_append, dataBlocksFrom, ih, dataBlocksFrom, List.cons_append, List.length_cons, Nat.add_right_comm,
      Nat.add_assoc k]

/-- The blocks of an evaluation, split at the word of one data block. -/
theorem blocksOf_append_cons (a c : Word64) (l r : List Word128) (w : Word128) :
    blocksOf a c (l ++ w :: r) = dataBlocksFrom a c (blockCount a c) 1 l ++
      (w &&& maskw (nbytes a c (blockCount a c) (l.length + 1))) ::
        (dataBlocksFrom a c (blockCount a c) (l.length + 1 + 1) r ++ [lenblock a c]) := by
  rw [blocksOf, dataBlocksFrom_append, dataBlocksFrom, Nat.add_comm 1, List.append_assoc, List.cons_append]

theorem xor_and_distrib (u v mask : Word128) : (u ^^^ v) &&& mask = (u &&& mask) ^^^ (v &&& mask) := by
  apply BitVec.eq_of_getLsbD_eq
  intro i _
  simp [Bool.and_xor_distrib_right]

/-- The mask of n bytes clears a bit of a pad byte, and no other. -/
theorem oneBit_and_maskw {b : Nat} (hb : b < 128) (n : Nat) :
    oneBit b &&& maskw n = if b < 128 - 8 * n then 0#128 else oneBit b := by
  change BitVec.twoPow 128 b &&& maskw n = if b < 128 - 8 * n then 0#128 else BitVec.twoPow 128 b
  rw [BitVec.twoPow_and, maskw_bit n b hb]
  by_cases h : b < 128 - 8 * n
  · simp [h, Nat.not_le.2 h]
  · simp [h, Nat.not_lt.1 h]

theorem masked_oneBit_gmul_eq_zero_iff {b : Nat} (hb : b < 128) (n : Nat) (share : Word128) :
    gmul (oneBit b &&& maskw n) share = 0#128 ↔ b < 128 - 8 * n ∨ share = 0#128 := by
  rw [oneBit_and_maskw hb]
  by_cases h : b < 128 - 8 * n
  · simp [h]
  · rw [if_neg h, gmul_comm, gmul_oneBit_eq_zero_iff share hb, or_iff_right h]

/-- What an evaluation needs of its words is their number. -/
theorem Ready.of_length_eq (h : Ready a c ws s) (hlen : ws'.length = ws.length) : Ready a c ws' s :=
  { h with words := hlen ▸ h.words }

/-- Settles O54: the flip changes the sum by the product of the masked bit and the block's share. -/
theorem aFlippedBlockBitFailsUnlessItsShareIsZero : Obligations.AFlippedBlockBitFailsUnlessItsShareIsZero := by
  intro s t a c before after w b hs hl hb hrun hpass
  have hwords := hs.words
  have hentry : blockCount a c - (before.length + 1) + 1 = after.length + 1 + 1 := by
    rw [List.length_append, List.length_cons] at hwords
    omega
  have hsum := directSum_block_xor (tableRead s.pt) (dataBlocksFrom a c (blockCount a c) 1 before)
    (dataBlocksFrom a c (blockCount a c) (before.length + 1 + 1) after ++ [lenblock a c])
    (w &&& maskw (nbytes a c (blockCount a c) (before.length + 1)))
    (oneBit b &&& maskw (nbytes a c (blockCount a c) (before.length + 1)))
  rw [← xor_and_distrib, ← blocksOf_append_cons, ← blocksOf_append_cons, List.length_append, length_dataBlocksFrom,
    List.length_singleton, ← hentry] at hsum
  obtain ⟨u, hu, hsame, hdiff⟩ :=
    verification_of_changed_sum hs hl (hs.of_length_eq (by simp)) rfl hsum hrun hpass
  rw [Ne, masked_oneBit_gmul_eq_zero_iff hb, not_or] at hdiff
  rw [masked_oneBit_gmul_eq_zero_iff hb] at hsame
  exact ⟨u, hu, hsame, hdiff⟩

/-! ### A flipped bit of a share -/

/-- An entry of PT written anew, its valid bit as it was. -/
theorem Inv.tableWrite (h : Inv s) {j : Nat} (hj : 1 ≤ j ∧ j ≤ s.depth) (v : Word128) :
    Inv { s with pt := tableWrite s.pt j v } :=
  { h with
    pt_wf := tableWrite_wf s.pt j v h.pt_wf
    pt_keys := fun e he => by
      obtain he | ⟨rfl, -⟩ := mem_tableWrite s.pt j v e he
      · exact h.pt_keys e he
      · exact hj }

theorem Ready.tableWrite (h : Ready a c ws s) {j : Nat} (hj : 1 ≤ j ∧ j ≤ blockCount a c) (v : Word128) :
    Ready a c ws { s with pt := tableWrite s.pt j v } :=
  { h with inv := h.inv.tableWrite ⟨hj.1, hj.2.trans h.fits⟩ v }

theorem exists_split_at {α : Type} {l : List α} {i : Nat} (h : i < l.length) :
    ∃ x r, l = l.take i ++ x :: r ∧ l[i]? = some x ∧ r.length + 1 = l.length - i :=
  ⟨l[i], l.drop (i + 1), by rw [← List.drop_eq_getElem_cons h, List.take_append_drop], List.getElem?_eq_getElem h, by
    rw [List.length_drop]
    omega⟩

/-- Settles O55: the flip changes the sum by the product of the share's block and the bit. -/
theorem aFlippedShareBitFailsUnlessItsBlockIsZero : Obligations.AFlippedShareBitFailsUnlessItsBlockIsZero := by
  intro s t a c ws j b hs hl hb h1 hj hrun hpass
  have hlen := hs.length_blocksOf
  obtain ⟨x, r, hblocks, hx, hr⟩ := exists_split_at (l := blocksOf a c ws) (i := blockCount a c - j) (by omega)
  have hj' : r.length + 1 = j := by omega
  have hsum := directSum_share_xor (p := tableRead s.pt)
    (q := tableRead (tableWrite s.pt j (tableRead s.pt j ^^^ oneBit b)))
    ((blocksOf a c ws).take (blockCount a c - j)) r x (oneBit b)
    (by rw [hj', tableRead_tableWrite_same _ _ _ hs.inv.pt_wf])
    (fun i hi => tableRead_tableWrite_other _ _ _ _ (by omega))
  rw [← hblocks] at hsum
  obtain ⟨u, hu, hsame, hdiff⟩ :=
    verification_of_changed_sum hs hl (hs.tableWrite ⟨h1, hj⟩ _) rfl hsum hrun hpass
  rw [Ne, gmul_oneBit_eq_zero_iff x hb] at hdiff
  rw [gmul_oneBit_eq_zero_iff x hb] at hsame
  rw [hx, Ne, Option.some_inj]
  exact ⟨u, hu, hsame, hdiff⟩

end Sys2Proof.Machine
end

section
/-! The control commands: NOP, CLR and RD_STATUS find no check to fail, and SET_CFG its two errors in order (R89 to R92). -/

namespace Sys2Proof.Machine

/-- A nonzero word of NOP's opcode has a reserved bit set (R52, R59). -/
theorem reserved_of_nop_opcode {w : CmdWord} (hw : w.toNat < 2 ^ 24) (h0 : w ≠ 0#32) : Reserved w := by
  have hne : w.toNat ≠ 0 := fun h => h0 (BitVec.toNat_eq.2 h)
  have hbits : w.toNat / 2 ^ 24 ≠ 0x10 ∧ w.toNat % 2 ^ 24 ≠ 0 := by omega
  exact .inr (.inr (.inr (.inr (.inl hbits))))

/-- Settles O23: NOP always succeeds and has no effect, and of its opcode's words the decoder accepts 0 alone. -/
theorem nopDoesNothing : Obligations.NopDoesNothing :=
  ⟨fun _ => exec_of_guard (i := .nop) trivial, fun w d hw =>
    ⟨fun h0 => (decode_nop_iff ⟨w, d⟩).2 h0,
      fun h0 => ⟨_, decode_of_no_row (no_row_of_reserved (reserved_of_nop_opcode hw h0))⟩⟩⟩

/-- Settles O24: CLR always succeeds, with both lists of the table empty. -/
theorem clrReturnsEveryRegisterToReset : Obligations.ClrReturnsEveryRegisterToReset :=
  ⟨decode_of_row 1 rfl rfl, fun s => ⟨success .clr s, exec_of_guard trivial, fun _ => ⟨rfl, rfl⟩, rfl⟩⟩

/-- What SET_CFG stores in NORM, for an operand without reserved bits (R91). -/
theorem getLsbD_zero_of_lt_two {d : Word128} (hd : d.toNat < 2) : d.getLsbD 0 = decide (d.toNat = 1) := by
  rw [BitVec.getLsbD, Nat.testBit_zero, Nat.mod_eq_of_lt hd]

/-- SET_CFG's guard, as a bound on its operand (R91). -/
theorem guard_setCfg {s : State} {d : Word128} (hn : s.evalState ≠ .active) (hd : d.toNat < 2) : Guard (.setCfg d) s :=
  ⟨hn, (reserved_clear_iff d).2 (Nat.div_eq_of_lt hd)⟩

/-- The state check of SET_CFG comes first, whatever the operand (R91, R96). -/
theorem execSetCfg_of_active {s : State} (ha : s.evalState = .active) (d : Word128) :
    execSetCfg d s = .next (raise .sequence s) := by
  obtain ⟨-, e⟩ | ⟨hn, -⟩ | ⟨hn, -⟩ := execSetCfg_cases d s
  · exact e
  · exact absurd ha hn
  · exact absurd ha hn

/-- Settles O25: the two errors of SET_CFG, and the effect of its success, which stores the operand's only free bit. -/
theorem setCfgInvalidatesEveryShare : Obligations.SetCfgInvalidatesEveryShare := by
  refine ⟨fun d => decodeOfEncode (.setCfg d) rfl, fun s d =>
    ⟨fun ha => execSetCfg_of_active ha d, execSetCfg_of_reserved, fun hn hd => ?_⟩⟩
  refine ⟨success (.setCfg d) s, exec_of_guard (guard_setCfg hn hd), fun _ => rfl, ?_⟩
  rw [← getLsbD_zero_of_lt_two hd]
  rfl

/-- Settles O26: RD_STATUS always succeeds and has no effect, and its reply is the view of the state it finds. -/
theorem rdStatusReturnsTheView : Obligations.RdStatusReturnsTheView :=
  ⟨decode_of_row 3 rfl rfl, fun _ => exec_of_guard (i := .rdStatus) trivial⟩

end Sys2Proof.Machine
end

section
/-! Which error a command answers: its first failing check is the one reported, with the abort of R97, and each check belongs
to the commands that R93 lists for its code (R93 to R97). -/

namespace Sys2Proof.Machine

variable {s t : State} {c : Command} {i : Instr} {e : ErrCode}

/-! ### The abort -/

/-- The accepting branch of `step`, for a word that does not decode. -/
theorem step_of_illegal {why : DecodeError} (hc : s.cmdPort = some c) (hr : s.rspPort = none)
    (hd : decode c = .illegal why) : step s = .next (raise .illegal { s with cmdPort := none }) := by
  simp only [step, hc, hr, hd, takeIllegal]

/-- An error response comes with the abort of its code. -/
theorem eq_raise_of_error {d : Word128} (h : exec i s = .next t) (hr : t.rspPort = some ⟨.err e, d⟩) : t = raise e s := by
  obtain ⟨-, x, rfl⟩ | ⟨-, rfl⟩ := exec_next_cases h
  · cases hr
    rfl
  · exact absurd hr (success_answers_no_error i s e d)

/-- Settles O17: the abort is the state that `raise` leaves, for a command and for a word that does not decode. -/
theorem everyErrorAborts : Obligations.EveryErrorAborts :=
  ⟨fun _ _ _ _ _ => eq_raise_of_error, fun _ _ _ => step_of_illegal⟩

/-! ### The first failing check -/

/-- Settles O19: under the invariant the checks decide the outcome, and a success answers its command's reply. -/
theorem theFirstErrorIsReported : Obligations.TheFirstErrorIsReported := by
  refine ⟨fun i s hs => ?_, fun _ _ _ => step_of_illegal⟩
  obtain ⟨e, hf, he⟩ | ⟨hf, g⟩ := checksDecide i hs.runInTable <;> rw [hf]
  · refine ⟨fun x hx => ?_, nofun⟩
    cases hx
    exact he
  · exact ⟨nofun, fun _ => ⟨_, _, exec_of_guard g, rfl, reply_no_error i s⟩⟩

/-- The state check comes before every other check of a command's rule (R95). -/
theorem exec_of_not_accepted (h : acceptedIn i s.evalState = false) : exec i s = .next (raise .sequence s) := by
  cases i with
  | nop | clr | rdStatus => cases h
  | setCfg | wrPt | wrIvs | wrTags | wrTag | start =>
    have ha : s.evalState = .active := Decidable.not_not.1 (of_decide_eq_false h)
    exact congrArg Host.Outcome.next (if_pos ha)
  | absorb | finish => exact if_pos (of_decide_eq_false h)
  | rdAcc | verify => exact congrArg Host.Outcome.next (if_pos (of_decide_eq_false h))

/-- A command that answers is decided by its checks in every state: without R32 there is only the fault beside them. -/
theorem checksDecide_of_next (h : exec i s = .next t) : ChecksDecide i s := by
  by_cases ha : s.evalState = .active
  · cases hacc : acceptedIn i s.evalState with
    | false => exact checksDecide_of_not_accepted hacc (exec_of_not_accepted hacc)
    | true =>
      cases i with
      | nop | clr | rdStatus => exact checksDecide_of_guard rfl rfl trivial
      | setCfg | wrPt | wrIvs | wrTags | wrTag | start | rdAcc | verify =>
        rw [ha] at hacc
        cases hacc
      | absorb w =>
        obtain ⟨hn, -⟩ | ⟨-, hk, he⟩ | ⟨-, -, -, he⟩ | ⟨-, hk, hd, -⟩ := execAbsorb_cases w s
        · exact absurd ha hn
        · exact checksDecide_of_failed hacc (by simp [ownChecks, hk]) he
        · cases he.symm.trans h
        · exact checksDecide_of_guard hacc (by simp [ownChecks, hk]) ⟨ha, hk, hd⟩
      | finish =>
        obtain ⟨hn, -⟩ | ⟨-, hk, he⟩ | ⟨-, -, -, he⟩ | ⟨-, hk, hd, -⟩ := execFinish_cases s
        · exact absurd ha hn
        · exact checksDecide_of_failed hacc (by simp [ownChecks, hk]) he
        · cases he.symm.trans h
        · exact checksDecide_of_guard hacc (by simp [ownChecks, hk]) ⟨ha, hk, hd⟩
  · exact checksDecide i fun hn => absurd hn ha

/-- The error a command answers is the first one of R96's order, in every state. -/
theorem firstError_of_raise (h : exec i s = .next (raise e s)) : firstError i s = some e := by
  obtain ⟨x, hf, he⟩ | ⟨-, g⟩ := checksDecide_of_next h
  · have hrsp : (raise x s).rspPort = (raise e s).rspPort := by rw [Host.Outcome.next.inj (he.symm.trans h)]
    cases hrsp
    exact hf
  · have hsuccess := Host.Outcome.next.inj ((exec_of_guard g).symm.trans h)
    exact absurd (hsuccess ▸ rfl) (success_answers_no_error i s e 0#128)

/-! ### The checks and their codes -/

/-- A reported error is the state check's, or a failing check of the command's own rule. -/
theorem firstError_cases (h : firstError i s = some e) :
    (acceptedIn i s.evalState = false ∧ e = .sequence) ∨ (true, e) ∈ ownChecks i s := by
  obtain ⟨⟨b, _⟩, hfind, rfl⟩ := Option.map_eq_some_iff.1 h
  have hfails : b = true := List.find?_some hfind
  subst hfails
  obtain heq | hmem := List.mem_cons.1 (List.mem_of_find?_eq_some hfind)
  · rw [Prod.mk.injEq] at heq
    exact .inl ⟨of_decide_eq_true heq.1.symm, heq.2⟩
  · exact .inr hmem

/-- The commands with checks of their own, the codes of these checks, and when the two of code ERR_SEQUENCE fail (R93). -/
theorem failing_ownCheck_cases (h : (true, e) ∈ ownChecks i s) :
    ((∃ d, i = .setCfg d) ∧ e = .illegal) ∨ ((∃ idx v, i = .wrPt idx v) ∧ e = .index) ∨
    ((∃ a c, i = .start a c) ∧ (e = .tooShort ∨ e = .insufficient)) ∨
    ((∃ w, i = .absorb w) ∧ e = .sequence ∧ s.k.toNat + 1 = s.m.toNat) ∨
    (i = .finish ∧ e = .sequence ∧ s.k.toNat + 1 ≠ s.m.toNat) ∨ (i = .verify ∧ e = .notLoaded) := by
  cases i with
  | nop | clr | rdStatus | wrIvs | wrTags | wrTag | rdAcc => cases h
  | setCfg | wrPt | absorb | finish | verify => simp_all [ownChecks]
  | start a c =>
    have hcode : e = .tooShort ∨ e = .insufficient := by
      simp only [ownChecks, List.mem_cons, Prod.mk.injEq, List.not_mem_nil, or_false] at h
      exact h.imp And.right And.right
    simp [hcode]

/-- Where STATE goes when a command succeeds (R95). -/
theorem effect_evalState (i : Instr) (s : State) : (effect i s).evalState = stateAfter i s.evalState := by
  cases i <;> rfl

/-- Settles O18: the state check comes first, only ABSORB and FINISH have another check of its code, and a success has the
command's effect on STATE. -/
theorem commandsAcceptedInEachState : Obligations.CommandsAcceptedInEachState := by
  refine fun i s => ⟨exec_of_not_accepted, fun hacc => ⟨fun t d h hr => ?_, fun t code d h hr hne => ?_⟩⟩
  · rw [eq_raise_of_error h hr] at h
    obtain ⟨hn, -⟩ | hown := firstError_cases (firstError_of_raise h)
    · cases hacc.symm.trans hn
    · simpa using failing_ownCheck_cases hown
  · obtain ⟨-, rfl⟩ := success_of_no_error h hr hne
    exact effect_evalState i s

/-- VERIFY answers PASS or FAIL, as VERDICT then says, and every other command OK (R94). -/
theorem reply_code_cases (i : Instr) (s : State) :
    (i ≠ .verify ∧ (reply i s).code = .ok) ∨
    (i = .verify ∧ (reply i s).code = .pass ∧ (success i s).verdict = true) ∨
    (i = .verify ∧ (reply i s).code = .fail ∧ (success i s).verdict = false) := by
  by_cases hi : i = .verify
  · subst hi
    by_cases hr : recon s = s.tag <;> simp [reply, success, effect, hr]
  · exact .inl ⟨hi, reply_code_ok hi s⟩

/-- Bit 7 of a response code marks an error (R93). -/
theorem rspByte_bit_seven_iff (code : RspCode) : (rspByte code).getLsbD 7 = true ↔ ∃ e, code = .err e := by
  cases code with
  | ok | pass | fail => simp [rspByte]
  | err e => cases e <;> simp [rspByte, errByte]

/-- Settles O22: an error is that of the state check, which NOP, CLR and RD_STATUS do not have, or of a check of the
command's own; a success answers its command's reply. -/
theorem whichCommandAnswersWhichCode : Obligations.WhichCommandAnswersWhichCode := by
  refine ⟨⟨rfl, rfl, rfl, rfl, rfl, rfl, rfl, rfl, rfl⟩, rspByte_bit_seven_iff, fun i s t r h hr => ?_⟩
  obtain ⟨hg, e, rfl⟩ | ⟨-, rfl⟩ := exec_next_cases h <;> cases hr
  · have hchecked : i ≠ .nop ∧ i ≠ .clr ∧ i ≠ .rdStatus := by
      refine ⟨?_, ?_, ?_⟩ <;> rintro rfl <;> exact hg trivial
    obtain ⟨-, rfl⟩ | hown := firstError_cases (firstError_of_raise h)
    · simp [hchecked]
    · obtain ⟨hi, rfl⟩ | ⟨hi, rfl⟩ | ⟨hi, rfl | rfl⟩ | ⟨hi, rfl, -⟩ | ⟨hi, rfl, -⟩ | ⟨hi, rfl⟩ :=
          failing_ownCheck_cases hown <;>
        simp [hi, hchecked]
  · obtain ⟨hi, hcode⟩ | ⟨hi, hcode, hv⟩ | ⟨hi, hcode, hv⟩ := reply_code_cases i s <;> rw [hcode]
    · simp [hi]
    · simp [hi ▸ hv, hi]
    · simp [hi ▸ hv, hi]

end Sys2Proof.Machine
end

section
/-! The host's moves at the ports, in a state that accepts no command (R106, R112, R114). -/

namespace Sys2Proof.Machine

/-- A state accepts no command without one on its port, or while a response waits; then the step is the host's move. -/
theorem step_of_no_acceptance {s : State} (h : s.cmdPort = none ∨ s.rspPort ≠ none) : step s = hostMove s := by
  obtain hc | hr := h
  · exact step_of_idle hc
  · obtain ⟨r, hr⟩ := Option.ne_none_iff_exists'.1 hr
    exact step_of_response_waiting hr

/-- Settles O9: the step is the host's move, and each clause is one of its branches. -/
theorem hostMovesAtThePorts : Obligations.HostMovesAtThePorts := by
  intro s h
  rw [step_of_no_acceptance h]
  refine ⟨fun hh => ?_, fun rest hh => ?_, fun c rest hh hc => ?_, fun c rest hh hc => ?_⟩
  · simp only [hostMove, hh]
  · simp only [hostMove, hh]
  · simp only [hostMove, hh, hc]
  · obtain ⟨d, hd⟩ := Option.ne_none_iff_exists'.1 hc
    simp only [hostMove, hh, hd]

end Sys2Proof.Machine
end

section
/-! Reset: the registers it gives (R108), and the host's reset move (R107, R109). -/

namespace Sys2Proof.Machine

/-- No entry of PT is valid at reset, whichever index is asked for (R16, R21). -/
theorem ptValid_resetWith (n i : Nat) : ptValid (State.resetWith n) i = false := rfl

/-- Settles O7: each register is the reset column's by the definition of the reset state; that PT_DEPTH is in R7's range is
a fact of Config. -/
theorem resetRegisters : Obligations.ResetRegisters :=
  ⟨rfl, rfl, ptValid_resetWith Config.ptDepth, rfl, rfl, rfl, rfl, rfl, rfl, rfl, rfl, rfl, rfl, rfl, rfl, rfl, rfl,
    ptDepth_bounds⟩

/-- Where no command is accepted, a reset move is `resetNow` with the move taken off the host's list. -/
theorem step_reset {s : State} {rest : List HostMove} (hh : s.host = .reset :: rest)
    (h : s.cmdPort = none ∨ s.rspPort ≠ none) : step s = .next (resetNow { s with host := rest }) := by
  rw [step_of_no_acceptance h]
  simp only [hostMove, hh]

/-- Settles O8: `resetNow` is the reset state but for the command port and the host's list, and its response port is
empty. -/
theorem resetLeavesTheResetRegisters : Obligations.ResetLeavesTheResetRegisters :=
  fun _ _ hh h => ⟨_, step_reset hh h, rfl⟩

end Sys2Proof.Machine
end
